-- ==== Sys2Proof/Word.lean ====
section
/-! DEFINITION. The widths of `00_scope.md` R7 and the plainest arithmetic on them (R13, R14: every value is unsigned). -/

namespace Sys2Proof

/-- A byte: a general register, a timer, a memory cell (R7, R20, R27). -/
abbrev Byte := BitVec 8

/-- A 16-bit value: an instruction word, `pc`, `I`, a stack slot (R7, R22, R23, R26). -/
abbrev Word := BitVec 16

/-- A 12-bit address literal `nnn` (R72). -/
abbrev Addr := BitVec 12

/-- A 4-bit literal, `n` (R72). -/
abbrev Nibble := BitVec 4

/-- The number of a general register, 0–15 (R20). -/
abbrev Reg := Fin 16

/-- A logical key, 0x0–0xF (R7, Glossary). -/
abbrev Key := Fin 16

/-- `V[0xF]`, the flag register (R21). -/
abbrev flagReg : Reg := 15

/-- A one-bit flag value written to an 8-bit register: 1 or 0 (R120). -/
def flagByte (b : Bool) : Byte := if b then 1 else 0

/-- `zext_16` of a 12-bit literal (R74). -/
def zext16 (a : Addr) : Word := a.setWidth 16

end Sys2Proof
end

