-- ==== Sys2Proof/Machine/Flags.lean ====
section
/-! DEFINITION. The 8-bit results and the flag outputs of the arithmetic and shift instructions (`41_register_alu.md` R120). Sums are computed exactly and then reduced. -/

namespace Sys2Proof.Machine

/-- The exact sum, 0..510 (R136). -/
def exactSum (a b : Byte) : Nat := a.toNat + b.toNat

/-- The sum modulo 256 (R131, R136). -/
def sumByte (a b : Byte) : Byte := BitVec.ofNat 8 (exactSum a b)

/-- Carry: the exact sum is above 255 (R136). -/
def carry (a b : Byte) : Bool := decide (255 < exactSum a b)

/-- `(a - b) mod 256` (R120). -/
def diffByte (a b : Byte) : Byte := BitVec.ofNat 8 (a.toNat + 256 - b.toNat)

/-- Not borrow: `a >= b`, unsigned, with equal operands giving 1 (R137, R139). -/
def notBorrow (a b : Byte) : Bool := decide (b.toNat ≤ a.toNat)

/-- The bit that a right shift by one shifts out (R138). -/
def lowBit (a : Byte) : Bool := a.getLsbD 0

/-- `a div 2` (R138): a logical shift. -/
def halfByte (a : Byte) : Byte := BitVec.ofNat 8 (a.toNat / 2)

/-- The bit that a left shift by one shifts out, bit 7 (R140). -/
def highBit (a : Byte) : Bool := a.getLsbD 7

/-- `(a * 2) mod 256` (R140). -/
def doubleByte (a : Byte) : Byte := BitVec.ofNat 8 (a.toNat * 2)

/-- The decimal digits of a byte: hundreds, tens, ones (R163). -/
def hundredsDigit (v : Byte) : Byte := BitVec.ofNat 8 (v.toNat / 100)

/-- `(v div 10) mod 10`. -/
def tensDigit (v : Byte) : Byte := BitVec.ofNat 8 (v.toNat / 10 % 10)

/-- `v mod 10`. -/
def onesDigit (v : Byte) : Byte := BitVec.ofNat 8 (v.toNat % 10)

end Sys2Proof.Machine
end

