-- ==== Sys2Proof/Syntax.lean ====
section
/-! DEFINITION. The 35 instructions (`30_encoding.md` R76, R87), one constructor per row of the opcode table, each with exactly the fields it reads (R75). -/

namespace Sys2Proof

/-- The instruction set. A constructor carries the fields of its row's format (R75); the bits an instruction ignores (R82)
are not part of it. -/
inductive Instr where
  /-- `0nnn` `SYS nnn` (R100) -/
  | sys (nnn : Addr)
  /-- `00E0` `CLS` (R180) -/
  | cls
  /-- `00EE` `RET` (R101) -/
  | ret
  /-- `1nnn` `JP nnn` (R102) -/
  | jp (nnn : Addr)
  /-- `2nnn` `CALL nnn` (R103) -/
  | call (nnn : Addr)
  /-- `3xkk` `SE Vx, kk` (R104) -/
  | seImm (x : Reg) (kk : Byte)
  /-- `4xkk` `SNE Vx, kk` (R105) -/
  | sneImm (x : Reg) (kk : Byte)
  /-- `5xy_` `SE Vx, Vy` (R106) -/
  | seReg (x y : Reg)
  /-- `6xkk` `LD Vx, kk` (R130) -/
  | ldImm (x : Reg) (kk : Byte)
  /-- `7xkk` `ADD Vx, kk` (R131) -/
  | addImm (x : Reg) (kk : Byte)
  /-- `8xy0` `LD Vx, Vy` (R132) -/
  | ldReg (x y : Reg)
  /-- `8xy1` `OR Vx, Vy` (R133) -/
  | orReg (x y : Reg)
  /-- `8xy2` `AND Vx, Vy` (R134) -/
  | andReg (x y : Reg)
  /-- `8xy3` `XOR Vx, Vy` (R135) -/
  | xorReg (x y : Reg)
  /-- `8xy4` `ADD Vx, Vy` (R136) -/
  | addReg (x y : Reg)
  /-- `8xy5` `SUB Vx, Vy` (R137) -/
  | sub (x y : Reg)
  /-- `8x_6` `SHR Vx` (R138) -/
  | shr (x : Reg)
  /-- `8xy7` `SUBN Vx, Vy` (R139) -/
  | subn (x y : Reg)
  /-- `8x_E` `SHL Vx` (R140) -/
  | shl (x : Reg)
  /-- `9xy_` `SNE Vx, Vy` (R107) -/
  | sneReg (x y : Reg)
  /-- `Annn` `LD I, nnn` (R160) -/
  | ldI (nnn : Addr)
  /-- `Bnnn` `JP V0, nnn` (R108) -/
  | jpV0 (nnn : Addr)
  /-- `Cxkk` `RND Vx, kk` (R141) -/
  | rnd (x : Reg) (kk : Byte)
  /-- `Dxyn` `DRW Vx, Vy, n` (R181) -/
  | drw (x y : Reg) (n : Nibble)
  /-- `Ex9E` `SKP Vx` (R200) -/
  | skp (x : Reg)
  /-- `ExA1` `SKNP Vx` (R201) -/
  | sknp (x : Reg)
  /-- `Fx07` `LD Vx, DT` (R202) -/
  | ldVxDt (x : Reg)
  /-- `Fx0A` `LD Vx, K` (R203) -/
  | ldVxK (x : Reg)
  /-- `Fx15` `LD DT, Vx` (R204) -/
  | ldDtVx (x : Reg)
  /-- `Fx18` `LD ST, Vx` (R205) -/
  | ldStVx (x : Reg)
  /-- `Fx1E` `ADD I, Vx` (R161) -/
  | addI (x : Reg)
  /-- `Fx29` `LD F, Vx` (R162) -/
  | ldF (x : Reg)
  /-- `Fx33` `LD B, Vx` (R163) -/
  | ldB (x : Reg)
  /-- `Fx55` `LD [I], Vx` (R164) -/
  | storeRegs (x : Reg)
  /-- `Fx65` `LD Vx, [I]` (R165) -/
  | loadRegs (x : Reg)
deriving DecidableEq, Repr

end Sys2Proof
end

