-- ==== Sys2Proof/Decode.lean ====
section
/-! DEFINITION. Fields, decoding and encoding of the 16-bit instruction words (`30_encoding.md` R70–R83). -/

namespace Sys2Proof

/-! ### Fields (R72) -/

/-- `type`, `w[15:12]`. -/
def typeField (w : Word) : Nibble := w.extractLsb' 12 4

/-- `w[11:8]` as bits. -/
def xField (w : Word) : Nibble := w.extractLsb' 8 4

/-- `w[7:4]` as bits. -/
def yField (w : Word) : Nibble := w.extractLsb' 4 4

/-- `n`, `w[3:0]`. -/
def nField (w : Word) : Nibble := w.extractLsb' 0 4

/-- `nnn`, `w[11:0]`. -/
def nnnField (w : Word) : Addr := w.extractLsb' 0 12

/-- `kk`, `w[7:0]`. -/
def kkField (w : Word) : Byte := w.extractLsb' 0 8

/-- The register a 4-bit field names (R74: all 16 values are legal). -/
def regOfBits (b : Nibble) : Reg := ⟨b.toNat, b.isLt⟩

/-- The 4-bit field that names a register. -/
def bitsOfReg (r : Reg) : Nibble := BitVec.ofNat 4 r.val

/-- Register index `x`. -/
def xReg (w : Word) : Reg := regOfBits (xField w)

/-- Register index `y`. -/
def yReg (w : Word) : Reg := regOfBits (yField w)

/-! ### Decoding -/

/-- Why a word is illegal: which secondary code is unknown (R83). -/
inductive Illegal where
  /-- type 0x8 with `n` in {8, 9, A, B, C, D, F} (R78) -/
  | aluCode (n : Nibble)
  /-- type 0xE with `kk` not in {0x9E, 0xA1} (R79) -/
  | keyCode (kk : Byte)
  /-- type 0xF with a `kk` outside the nine of R80 -/
  | miscCode (kk : Byte)
deriving DecidableEq, Repr

/-- The outcome of decoding a word: one of the 35 instructions, or illegal (R85). -/
inductive Decoded where
  | instr (i : Instr)
  | illegal (why : Illegal)
deriving DecidableEq, Repr

/-- Type 0x0, secondary dispatch on `nnn` (R77): it has no decode error. -/
def decodeType0 (w : Word) : Instr :=
  if nnnField w = 0x0E0 then .cls else if nnnField w = 0x0EE then .ret else .sys (nnnField w)

/-- Type 0x8, secondary dispatch on `n` (R78). -/
def decodeType8 (w : Word) : Decoded :=
  match (nField w).toNat with
  | 0x0 => .instr (.ldReg (xReg w) (yReg w))
  | 0x1 => .instr (.orReg (xReg w) (yReg w))
  | 0x2 => .instr (.andReg (xReg w) (yReg w))
  | 0x3 => .instr (.xorReg (xReg w) (yReg w))
  | 0x4 => .instr (.addReg (xReg w) (yReg w))
  | 0x5 => .instr (.sub (xReg w) (yReg w))
  | 0x6 => .instr (.shr (xReg w))
  | 0x7 => .instr (.subn (xReg w) (yReg w))
  | 0xE => .instr (.shl (xReg w))
  | _ => .illegal (.aluCode (nField w))

/-- Type 0xE, secondary dispatch on `kk` (R79). -/
def decodeTypeE (w : Word) : Decoded :=
  if kkField w = 0x9E then .instr (.skp (xReg w))
  else if kkField w = 0xA1 then .instr (.sknp (xReg w))
  else .illegal (.keyCode (kkField w))

/-- Type 0xF, secondary dispatch on `kk` (R80). -/
def decodeTypeF (w : Word) : Decoded :=
  if kkField w = 0x07 then .instr (.ldVxDt (xReg w))
  else if kkField w = 0x0A then .instr (.ldVxK (xReg w))
  else if kkField w = 0x15 then .instr (.ldDtVx (xReg w))
  else if kkField w = 0x18 then .instr (.ldStVx (xReg w))
  else if kkField w = 0x1E then .instr (.addI (xReg w))
  else if kkField w = 0x29 then .instr (.ldF (xReg w))
  else if kkField w = 0x33 then .instr (.ldB (xReg w))
  else if kkField w = 0x55 then .instr (.storeRegs (xReg w))
  else if kkField w = 0x65 then .instr (.loadRegs (xReg w))
  else .illegal (.miscCode (kkField w))

/-- Primary dispatch on `type` (R76). Types 0x5 and 0x9 have no secondary key: `n` is ignored (R81, D9). -/
def decode (w : Word) : Decoded :=
  match (typeField w).toNat with
  | 0x0 => .instr (decodeType0 w)
  | 0x1 => .instr (.jp (nnnField w))
  | 0x2 => .instr (.call (nnnField w))
  | 0x3 => .instr (.seImm (xReg w) (kkField w))
  | 0x4 => .instr (.sneImm (xReg w) (kkField w))
  | 0x5 => .instr (.seReg (xReg w) (yReg w))
  | 0x6 => .instr (.ldImm (xReg w) (kkField w))
  | 0x7 => .instr (.addImm (xReg w) (kkField w))
  | 0x8 => decodeType8 w
  | 0x9 => .instr (.sneReg (xReg w) (yReg w))
  | 0xA => .instr (.ldI (nnnField w))
  | 0xB => .instr (.jpV0 (nnnField w))
  | 0xC => .instr (.rnd (xReg w) (kkField w))
  | 0xD => .instr (.drw (xReg w) (yReg w) (nField w))
  | 0xE => decodeTypeE w
  | _ => decodeTypeF w

/-- The word of two bytes as fetch composes it: big-endian, high byte first (R71, R54). -/
def wordOfBytes (hi lo : Byte) : Word := hi ++ lo

/-- The two bytes of a word as memory holds them, the high byte at the lower address (R54). -/
def bytesOfWord (w : Word) : Byte × Byte := (w.extractLsb' 8 8, w.extractLsb' 0 8)

/-- Decoding of any bytes: the instruction at their front and the bytes after it; `none` where fewer than two bytes are given or
the word is illegal. -/
def decodeBytes : List Byte → Option (Instr × List Byte)
  | hi :: lo :: rest =>
    match decode (wordOfBytes hi lo) with
    | .instr i => some (i, rest)
    | .illegal _ => none
  | _ => none

/-- The instruction the decoder reads from a word numbered as the opcode table numbers it: bit 0 the least significant bit of the
one 16-bit word; the bits above `nbits` are 0 (log 22). -/
def decodeTableWord (nbits w : Nat) : Option Instr :=
  let b := bytesOfWord (BitVec.ofNat 16 (w % 2 ^ nbits))
  (decodeBytes [b.1, b.2]).map Prod.fst

/-! ### Encoding -/

/-- A word of format `NNN`. -/
def wordNNN (t : Nibble) (nnn : Addr) : Word := t ++ nnn

/-- A word of format `XKK`; with a fixed `kk`, of format `X` of types 0xE and 0xF. -/
def wordXKK (t : Nibble) (x : Reg) (kk : Byte) : Word := t ++ (bitsOfReg x ++ kk : BitVec 12)

/-- A word of format `XYN`; with a fixed `n`, of format `XY`. -/
def wordXYN (t : Nibble) (x y : Reg) (n : Nibble) : Word := t ++ (bitsOfReg x ++ (bitsOfReg y ++ n : BitVec 8) : BitVec 12)

/-- The word of an instruction, from the map of R76–R81; an ignored field is 0 (R88, D20). -/
def encode : Instr → Word
  | .sys nnn => wordNNN 0x0 nnn
  | .cls => 0x00E0
  | .ret => 0x00EE
  | .jp nnn => wordNNN 0x1 nnn
  | .call nnn => wordNNN 0x2 nnn
  | .seImm x kk => wordXKK 0x3 x kk
  | .sneImm x kk => wordXKK 0x4 x kk
  | .seReg x y => wordXYN 0x5 x y 0x0
  | .ldImm x kk => wordXKK 0x6 x kk
  | .addImm x kk => wordXKK 0x7 x kk
  | .ldReg x y => wordXYN 0x8 x y 0x0
  | .orReg x y => wordXYN 0x8 x y 0x1
  | .andReg x y => wordXYN 0x8 x y 0x2
  | .xorReg x y => wordXYN 0x8 x y 0x3
  | .addReg x y => wordXYN 0x8 x y 0x4
  | .sub x y => wordXYN 0x8 x y 0x5
  | .shr x => wordXYN 0x8 x 0 0x6
  | .subn x y => wordXYN 0x8 x y 0x7
  | .shl x => wordXYN 0x8 x 0 0xE
  | .sneReg x y => wordXYN 0x9 x y 0x0
  | .ldI nnn => wordNNN 0xA nnn
  | .jpV0 nnn => wordNNN 0xB nnn
  | .rnd x kk => wordXKK 0xC x kk
  | .drw x y n => wordXYN 0xD x y n
  | .skp x => wordXKK 0xE x 0x9E
  | .sknp x => wordXKK 0xE x 0xA1
  | .ldVxDt x => wordXKK 0xF x 0x07
  | .ldVxK x => wordXKK 0xF x 0x0A
  | .ldDtVx x => wordXKK 0xF x 0x15
  | .ldStVx x => wordXKK 0xF x 0x18
  | .addI x => wordXKK 0xF x 0x1E
  | .ldF x => wordXKK 0xF x 0x29
  | .ldB x => wordXKK 0xF x 0x33
  | .storeRegs x => wordXKK 0xF x 0x55
  | .loadRegs x => wordXKK 0xF x 0x65

/-! ### The opcode table's rows -/

/-- The mask and match of an instruction's row of the opcode table. -/
structure Row where
  mask : Word
  value : Word
deriving DecidableEq, Repr

/-- The opcode table (`opcode_table.json`): the row of each instruction. -/
def Instr.row : Instr → Row
  | .sys _ => ⟨0xF000, 0x0000⟩
  | .cls => ⟨0xFFFF, 0x00E0⟩
  | .ret => ⟨0xFFFF, 0x00EE⟩
  | .jp _ => ⟨0xF000, 0x1000⟩
  | .call _ => ⟨0xF000, 0x2000⟩
  | .seImm _ _ => ⟨0xF000, 0x3000⟩
  | .sneImm _ _ => ⟨0xF000, 0x4000⟩
  | .seReg _ _ => ⟨0xF000, 0x5000⟩
  | .ldImm _ _ => ⟨0xF000, 0x6000⟩
  | .addImm _ _ => ⟨0xF000, 0x7000⟩
  | .ldReg _ _ => ⟨0xF00F, 0x8000⟩
  | .orReg _ _ => ⟨0xF00F, 0x8001⟩
  | .andReg _ _ => ⟨0xF00F, 0x8002⟩
  | .xorReg _ _ => ⟨0xF00F, 0x8003⟩
  | .addReg _ _ => ⟨0xF00F, 0x8004⟩
  | .sub _ _ => ⟨0xF00F, 0x8005⟩
  | .shr _ => ⟨0xF00F, 0x8006⟩
  | .subn _ _ => ⟨0xF00F, 0x8007⟩
  | .shl _ => ⟨0xF00F, 0x800E⟩
  | .sneReg _ _ => ⟨0xF000, 0x9000⟩
  | .ldI _ => ⟨0xF000, 0xA000⟩
  | .jpV0 _ => ⟨0xF000, 0xB000⟩
  | .rnd _ _ => ⟨0xF000, 0xC000⟩
  | .drw _ _ _ => ⟨0xF000, 0xD000⟩
  | .skp _ => ⟨0xF0FF, 0xE09E⟩
  | .sknp _ => ⟨0xF0FF, 0xE0A1⟩
  | .ldVxDt _ => ⟨0xF0FF, 0xF007⟩
  | .ldVxK _ => ⟨0xF0FF, 0xF00A⟩
  | .ldDtVx _ => ⟨0xF0FF, 0xF015⟩
  | .ldStVx _ => ⟨0xF0FF, 0xF018⟩
  | .addI _ => ⟨0xF0FF, 0xF01E⟩
  | .ldF _ => ⟨0xF0FF, 0xF029⟩
  | .ldB _ => ⟨0xF0FF, 0xF033⟩
  | .storeRegs _ => ⟨0xF0FF, 0xF055⟩
  | .loadRegs _ => ⟨0xF0FF, 0xF065⟩

end Sys2Proof
end

