-- ==== Sys2Proof/Config.lean ====
section
/-! DEFINITION. The machine's parameters (`00_scope.md` R7–R11), their defaults, the forms of the host's answers, and the free values the spec leaves to the host (R12). -/

namespace Sys2Proof

/-- `MEM_SIZE` (R7). -/
abbrev memSize : Nat := 4096

/-- `GLYPH_TABLE`: 80 bytes, digit `d` at `5*d` (R10). -/
abbrev GlyphTable := Vector Byte 80

/-- The conventional glyphs of `92_eei_decisions.md` D2.
PRESUMED (the family's table; log 2): unsafe, the spec says that the repository's bytes may differ. -/
def defaultGlyphs : GlyphTable :=
  #v[0xF0, 0x90, 0x90, 0x90, 0xF0, 0x20, 0x60, 0x20, 0x20, 0x70,
     0xF0, 0x10, 0xF0, 0x80, 0xF0, 0xF0, 0x10, 0xF0, 0x10, 0xF0,
     0x90, 0x90, 0xF0, 0x10, 0x10, 0xF0, 0x80, 0xF0, 0x10, 0xF0,
     0xF0, 0x80, 0xF0, 0x90, 0xF0, 0xF0, 0x10, 0x20, 0x40, 0x40,
     0xF0, 0x90, 0xF0, 0x90, 0xF0, 0xF0, 0x90, 0xF0, 0x10, 0xF0,
     0xF0, 0x90, 0xF0, 0x90, 0x90, 0xE0, 0x90, 0xE0, 0x90, 0xE0,
     0xF0, 0x80, 0x80, 0x80, 0xF0, 0xE0, 0x90, 0x90, 0x90, 0xE0,
     0xF0, 0x80, 0xF0, 0x80, 0xF0, 0xF0, 0x80, 0xF0, 0x80, 0x80]

/-- The open parameters of R8–R11. They are fixed while the machine runs; the state carries them so that a claim
about every state is a claim about every configuration (log 5). -/
structure Config where
  programOrigin : Nat
  glyphs        : GlyphTable
  stackDepth    : Nat
  execHz        : Nat
  timerHz       : Nat
deriving DecidableEq, Repr

/-- The bounds of R8, R9 and R11. -/
def Config.valid (c : Config) : Bool :=
  decide (80 ≤ c.programOrigin) && decide (c.programOrigin ≤ 4094) && decide (c.programOrigin % 2 = 0)
    && decide (16 ≤ c.stackDepth)
    && decide (0 < c.timerHz) && decide (c.timerHz < c.execHz) && decide (c.execHz ≤ 1000000)

/-- The defaults: R8 (depth 16), R9 (origin 0x200, PRESUMED, log 1), R10 (glyphs, PRESUMED, log 2); the frequencies
are those of the source's worked example (DESIGN CHOICE, log 4). -/
def Config.default : Config :=
  { programOrigin := 0x200, glyphs := defaultGlyphs, stackDepth := 16, execHz := 500, timerHz := 60 }

/-- An answer to `IsPressed`: a snapshot of the keys now held, or a failure (R12, R252). -/
inductive KeySample where
  | held (keys : List Key)
  | failure
deriving DecidableEq, Repr, Inhabited

/-- What can end `WaitForKey`: the press of a key, or a failure (R253). -/
inductive KeyEvent where
  | press (k : Key)
  | failure
deriving DecidableEq, Repr, Inhabited

/-- The random byte of a draw the state lists no answer for: any value 0–255, free per draw (R251; log 6). -/
opaque Config.freeRandomByte : Nat → Byte

/-- The key snapshot of a sample the state lists no answer for: free per sample (R252; log 7). -/
opaque Config.freeKeySample : Nat → KeySample

/-- What the host does in one turn of a key wait when the state lists no action: nothing yet, a press or a failure, free
per turn, so that the wait may last for ever (R253; log 8). -/
opaque Config.freeKeyEvent : Nat → Option KeyEvent

end Sys2Proof
end

