-- ==== Sys2Proof/Machine/State.lean ====
section
/-! DEFINITION. The machine's state (`10_state.md` R35), the outcomes a step can stop with, and the state after reset (`70_reset_and_hazards.md` R260). -/

namespace Sys2Proof.Machine

/-- `MEM` as the addresses, strictly rising, whose byte differs from what an unlisted address reads as (the reset content,
R57): equal memories are equal lists (log 19). -/
abbrev Memory := List Host.Cell

/-- A pixel grid of 32 rows of 64 one-bit cells (R31): `g[r][c]` is `DISP[r][c]`. -/
abbrev Grid := Vector (Vector Bool 64) 32

/-- Every cell 0. -/
def Grid.blank : Grid := Vector.replicate 32 (Vector.replicate 64 false)

/-- The fatal errors and their records (`60_exceptions.md` R220): the word `w`, the address `pc` of the instruction, and `SP` or `V[x]`. -/
inductive FatalError where
  /-- code 1: an illegal word (R221) -/
  | decodeError (w pc : Word)
  /-- code 2: `CALL` with a full stack (R222) -/
  | stackOverflow (w pc : Word) (sp : Nat)
  /-- code 3: `RET` with an empty stack (R223) -/
  | stackUnderflow (w pc : Word) (sp : Nat)
  /-- code 4: `LD F, Vx` with `V[x] > 15` (R224) -/
  | glyphOutOfRange (w pc : Word) (vx : Byte)
  /-- code 5: `SKP`/`SKNP` with `V[x] > 15` (R225) -/
  | keyOutOfRange (w pc : Word) (vx : Byte)
  /-- code 6: an input failure that the host declared fatal (R226) -/
  | inputFailure (w pc : Word)
deriving DecidableEq, Repr

/-- `STATUS` (R33). -/
inductive Status where
  | running
  | waiting (x : Reg)
  | halted (e : FatalError)
deriving DecidableEq, Repr

/-- What the last `Step()` returned to the host (`60_exceptions.md` R250): the core's output, which no instruction reads
(log 12). -/
inductive Report where
  /-- no step has returned since reset -/
  | idle
  /-- `Sleep(d)`, microseconds (R241) -/
  | sleep (d : Nat)
  /-- `Error(e, info)` (R227) -/
  | error (e : FatalError)
  /-- `InputFailure(w, pc)`: the step was abandoned (R226) -/
  | inputFailure (w pc : Word)
  /-- the step is suspended in `Waiting` (R246) -/
  | suspended
deriving DecidableEq, Repr

/-- An element of R35 that the host may set between reset and the first step, and its value (R264, D25; log 24). -/
inductive HostWrite where
  | v (x : Reg) (b : Byte)
  | i (w : Word)
  | pc (w : Word)
  | dt (b : Byte)
  | st (b : Byte)
  | mem (a : Nat) (b : Byte)
  | slot (k : Nat) (w : Word)
  | sp (n : Nat)
  | accI (n : Nat)
  | accT (n : Nat)
  | disp (r : Fin 32) (c : Fin 64) (b : Bool)
  | prev (r : Fin 32) (c : Fin 64) (b : Bool)
  | dirty (b : Bool)
  | status (x : Status)
deriving DecidableEq, Repr

/-- What the host can do between steps, while a step is suspended, or after `Halted` (R249, R250). -/
inductive HostAction where
  /-- `Step()` (R241) -/
  | step
  /-- a key-press event (R253) -/
  | keyPress (k : Key)
  /-- the failure of the host's key wait (R226, R253) -/
  | keyFailure
  /-- `Redraw()` (R186) -/
  | redraw
  /-- `HaltOnInputFailure()` (R226) -/
  | haltOnInputFailure
  /-- `Load(rom)` (R255) -/
  | load (rom : List Byte)
  /-- `Reset()` (R260) -/
  | reset
  /-- boot steps (1) and (2) of R264: configure, then reset (log 17) -/
  | boot (c : Config)
  /-- the host sets an element between reset and the first step (R264, D25; log 24) -/
  | initialise (w : HostWrite)
deriving DecidableEq, Repr

/-- The state. The fields down to `mem` are the spec's (R35); `cfg` holds the fixed parameters (log 5); the rest are the model's own:
the core's output to the host and the host's inputs to the core. -/
structure State where
  /-- `V[0]`..`V[0xF]` (R20) -/
  v : Vector Byte 16
  /-- `I` (R22) -/
  i : Word
  /-- `pc` (R23) -/
  pc : Word
  /-- `STACK[0..STACK_DEPTH-1]` (R26) -/
  stack : List Word
  /-- `SP`, the next free slot (R26) -/
  sp : Nat
  /-- `DT` (R27) -/
  dt : Byte
  /-- `ST` (R29) -/
  st : Byte
  /-- `ACC_I`, microseconds (R30) -/
  accI : Nat
  /-- `ACC_T`, microseconds (R30) -/
  accT : Nat
  /-- `DISP` (R31) -/
  disp : Grid
  /-- `PREV` (R31) -/
  prev : Grid
  /-- `DIRTY` (R31) -/
  dirty : Bool
  /-- `STATUS` (R33) -/
  status : Status
  /-- `MEM` (R50) -/
  mem : Memory
  /-- the parameters (R8–R11) -/
  cfg : Config
  /-- what the last `Step()` returned (log 12) -/
  report : Report
  /-- whether `Load` is admitted (R265; log 13) -/
  loadable : Bool
  /-- the host actions to come, oldest first (log 9) -/
  actions : List HostAction
  /-- the listed `RandomByte()` answers to come, oldest first (log 6) -/
  randoms : List Byte
  /-- the listed `IsPressed` snapshots to come, oldest first (log 7) -/
  samples : List KeySample
  /-- how many free values have been drawn (logs 6–8) -/
  draws : Nat
deriving DecidableEq, Repr

/-- Why a step stops with a fault. -/
inductive Fault where
  /-- Raised by `step` when a scheduler step is due and `STATUS = Halted(e, info)`: no step is enabled (R227, R247). Safe: the
  machine stops where the spec's machine stops, with the error named. -/
  | halted (e : FatalError)
deriving DecidableEq, Repr

/-- Why a step is refused. -/
inductive Refusal where
  /-- Raised by `exec` for an instruction without a meaning; no instruction is left so. Safe. -/
  | notModelled (mnemonic : String)
  /-- Raised by the host action `boot` for a configuration outside the bounds of R8, R9, R11 (D4: the model refuses it). Safe. -/
  | invalidConfig
  /-- Raised by the host action `load` for a ROM longer than `4096 - PROGRAM_ORIGIN` (R255: refused by the loader). Safe. -/
  | romTooLong
  /-- Raised by the host action `load` when it does not follow a reset directly (R265, D25). Safe. -/
  | loadNotAfterReset
  /-- Raised by the host action `haltOnInputFailure` when the last step did not return `InputFailure` (R226; log 15). Safe. -/
  | noInputFailure
  /-- Raised by the host action `initialise` when a step has returned since reset, or the machine is not `Running` (R264, D25). Safe. -/
  | afterFirstStep
  /-- Raised by the host action `initialise` for a value outside the range of its element: a slot or `SP` beyond `STACK_DEPTH` (R26), an
  accumulator above its period (R30). Safe. -/
  | outOfRange
deriving DecidableEq, Repr

/-- The state after `Reset()` under a configuration (R260–R263): every element of R35 zeroed, memory at its reset content,
`pc` at the program origin, `Running`. -/
def State.resetWith (c : Config) : State :=
  { v := Vector.replicate 16 0, i := 0, pc := BitVec.ofNat 16 c.programOrigin,
    stack := List.replicate c.stackDepth 0, sp := 0, dt := 0, st := 0, accI := 0, accT := 0,
    disp := Grid.blank, prev := Grid.blank, dirty := false, status := .running, mem := [], cfg := c,
    report := .idle, loadable := true, actions := [], randoms := [], samples := [], draws := 0 }

/-- The machine right after reset, under the default configuration (logs 1–4), with no ROM loaded and no host answer listed. -/
def State.reset : State := State.resetWith Config.default

end Sys2Proof.Machine
end

