-- ==== Sys2Proof/Machine/Ops.lean ====
section
/-! DEFINITION. The named operations over memory, `pc`, the call stack and the host's answers, taking an error, and the input-failure signal. -/

namespace Sys2Proof.Machine

/-- The outcome type of a meaning and of a step. -/
abbrev Result := Host.Outcome State Fault Refusal

/-! ### Memory (`20_memory.md`) -/

/-- What an address that memory does not list reads as: the reset content, `GLYPH_TABLE` at 0–79 and 0 elsewhere (R57, R261). -/
def unlisted (g : GlyphTable) (a : Nat) : Byte := if h : a < 80 then g[a] else 0

/-- The byte at an address below 4096. -/
def Memory.read (g : GlyphTable) : Memory → Nat → Byte
  | [], a => unlisted g a
  | (b, w) :: m, a => if a < b then unlisted g a else if a = b then w else Memory.read g m a

/-- A cell put in front, unless it equals what an unlisted address reads as. -/
def Memory.put (g : GlyphTable) (a : Nat) (v : Byte) (m : Memory) : Memory :=
  if v = unlisted g a then m else (a, v) :: m

/-- Write a byte, keeping the canonical form. -/
def Memory.write (g : GlyphTable) : Memory → Nat → Byte → Memory
  | [], a, v => Memory.put g a v []
  | (b, w) :: m, a, v =>
    if a < b then Memory.put g a v ((b, w) :: m)
    else if a = b then Memory.put g a v m
    else (b, w) :: Memory.write g m a v

/-- The listed addresses rise strictly from `lo`, are below 4096, and no entry equals what an unlisted address reads as. -/
def Memory.wfFrom (g : GlyphTable) : Nat → Memory → Bool
  | _, [] => true
  | lo, (a, v) :: m => decide (lo ≤ a) && decide (a < memSize) && (v != unlisted g a) && Memory.wfFrom g (a + 1) m

/-- The canonical form of memory. -/
def Memory.wf (g : GlyphTable) (m : Memory) : Bool := Memory.wfFrom g 0 m

/-- The physical address an address accesses (R52). -/
def physAddr (a : Nat) : Nat := a % memSize

/-- `MemRead(a, 1)` (R16). -/
def State.memRead (s : State) (a : Nat) : Byte := Memory.read s.cfg.glyphs s.mem (physAddr a)

/-- `MemWrite(a, 1, v)` (R16). -/
def State.memWrite (s : State) (a : Nat) (v : Byte) : State :=
  { s with mem := Memory.write s.cfg.glyphs s.mem (physAddr a) v }

/-- Write bytes at consecutive addresses, in ascending order (R60, R255). -/
def State.memWriteList (s : State) (a : Nat) : List Byte → State
  | [] => s
  | b :: bs => (s.memWrite a b).memWriteList (a + 1) bs

/-- The word at `pc`, `pc + 1`, big-endian (R71). -/
def State.fetch (s : State) : Word := wordOfBytes (s.memRead s.pc.toNat) (s.memRead (s.pc.toNat + 1))

/-! ### The program counter (`00_scope.md` R18) -/

/-- `pc <- t`. -/
def State.jump (s : State) (t : Word) : State := { s with pc := t }

/-- `advance`: `pc <- (pc + 2) mod 65536`. -/
def State.advance (s : State) : State := { s with pc := s.pc + 2 }

/-- `skip`: `pc <- (pc + 4) mod 65536`. -/
def State.skip (s : State) : State := { s with pc := s.pc + 4 }

/-- A conditional skip (R86). -/
def State.skipIf (s : State) (c : Bool) : State := if c then s.skip else s.advance

/-! ### The call stack (`10_state.md` R26) -/

/-- `STACK[k]`. -/
def State.stackSlot (s : State) (k : Nat) : Word := s.stack.getD k 0

/-- `STACK[SP] <- t; SP <- SP + 1` (R103). -/
def State.push (s : State) (t : Word) : State := { s with stack := s.stack.set s.sp t, sp := s.sp + 1 }

/-- `SP <- SP - 1`; the slot is not cleared (R101, R26). -/
def State.dropSlot (s : State) : State := { s with sp := s.sp - 1 }

/-! ### Errors (`60_exceptions.md` section 1) -/

/-- `raise <Error>(info)`: a fatal error sets `STATUS <- Halted(e, info)` and changes nothing else; `pc` stays at the instruction (R17, R227).
There is no return from it but reset (R231). -/
def State.raise (s : State) (e : FatalError) : State := { s with status := .halted e }

/-- `raise InputFailure`: the instruction has no effect and the step will return `InputFailure(w, pc)` (R226). -/
def State.signalInputFailure (s : State) (w : Word) : State := { s with report := .inputFailure w s.pc }

/-! ### The host's answers (R251, R252) -/

/-- The answer the next `RandomByte()` gives: the listed one, else the free value (log 6). -/
def State.nextRandom (s : State) : Byte :=
  match s.randoms with
  | b :: _ => b
  | [] => Config.freeRandomByte s.draws

/-- The state with that answer consumed. -/
def State.dropRandom (s : State) : State :=
  match s.randoms with
  | _ :: bs => { s with randoms := bs }
  | [] => { s with draws := s.draws + 1 }

/-- The snapshot the next `IsPressed` sees: the listed one, else the free value (log 7). -/
def State.nextSample (s : State) : KeySample :=
  match s.samples with
  | k :: _ => k
  | [] => Config.freeKeySample s.draws

/-- The state with that snapshot consumed. -/
def State.dropSample (s : State) : State :=
  match s.samples with
  | _ :: ks => { s with samples := ks }
  | [] => { s with draws := s.draws + 1 }

end Sys2Proof.Machine
end

