-- ==== Sys2Proof/Machine/Operands.lean ====
section
/-! DEFINITION. The operand forms of the instruction set (`30_encoding.md` R74): a register, and the byte at `I` plus a small offset (`42_index_memory.md`, addressing). -/

namespace Sys2Proof.Machine

/-- `V[r]` (R15, R20). -/
def State.readV (s : State) (r : Reg) : Byte := s.v[r]

/-- `V[r] <- b` (R15, R20). -/
def State.writeV (s : State) (r : Reg) (b : Byte) : State := { s with v := s.v.set r b }

/-- `V[0xF] <- 1 or 0` (R120). -/
def State.writeFlag (s : State) (b : Bool) : State := s.writeV flagReg (flagByte b)

/-- `I <- a` (R22). -/
def State.writeI (s : State) (a : Word) : State := { s with i := a }

/-- The address `I + k`, before its reduction modulo 4096 at the access (R52). -/
def State.indexAddr (s : State) (k : Nat) : Nat := s.i.toNat + k

/-- `MemWrite(I + k, 1, V[k])` for the `count` lowest `k`, in ascending order (R164, R60). -/
def State.storeRegsUpTo (s : State) : Nat → State
  | 0 => s
  | k + 1 => let t := s.storeRegsUpTo k; t.memWrite (t.indexAddr k) (t.readV (Fin.ofNat 16 k))

/-- `V[k] <- MemRead(I + k, 1)` for the `count` lowest `k`, in ascending order (R165, R60). -/
def State.loadRegsUpTo (s : State) : Nat → State
  | 0 => s
  | k + 1 => let t := s.loadRegsUpTo k; t.writeV (Fin.ofNat 16 k) (t.memRead (t.indexAddr k))

/-- The `n` bytes at `I`, in ascending order (R181). -/
def State.spriteBytes (s : State) (n : Nat) : List Byte := (List.range n).map fun r => s.memRead (s.indexAddr r)

end Sys2Proof.Machine
end

