-- ==== Sys2Proof/Machine/Alu.lean ====
section
/-! DEFINITION. Register load and arithmetic (`41_register_alu.md` R120–R141). Each statement reads the registers as the statements before it left them (R121, D10). -/

namespace Sys2Proof.Machine

/-- `LD Vx, kk` (R130). -/
def execLdImm (x : Reg) (kk : Byte) (s : State) : Result := .next (s.writeV x kk).advance

/-- `ADD Vx, kk`: no flag (R131). -/
def execAddImm (x : Reg) (kk : Byte) (s : State) : Result := .next (s.writeV x (sumByte (s.readV x) kk)).advance

/-- `LD Vx, Vy` (R132). -/
def execLdReg (x y : Reg) (s : State) : Result := .next (s.writeV x (s.readV y)).advance

/-- `OR Vx, Vy` (R133). -/
def execOrReg (x y : Reg) (s : State) : Result := .next (s.writeV x (s.readV x ||| s.readV y)).advance

/-- `AND Vx, Vy` (R134). -/
def execAndReg (x y : Reg) (s : State) : Result := .next (s.writeV x (s.readV x &&& s.readV y)).advance

/-- `XOR Vx, Vy` (R135). -/
def execXorReg (x y : Reg) (s : State) : Result := .next (s.writeV x (s.readV x ^^^ s.readV y)).advance

/-- `ADD Vx, Vy`: the sum from the old values, then `V[x]`, then the carry into `V[0xF]` (R136). -/
def execAddReg (x y : Reg) (s : State) : Result :=
  let a := s.readV x
  let b := s.readV y
  .next ((s.writeV x (sumByte a b)).writeFlag (carry a b)).advance

/-- `SUB Vx, Vy`: the flag first, then the difference of the registers as they now stand (R137). -/
def execSub (x y : Reg) (s : State) : Result :=
  let t := s.writeFlag (notBorrow (s.readV x) (s.readV y))
  .next (t.writeV x (diffByte (t.readV x) (t.readV y))).advance

/-- `SHR Vx`: the flag first, then the shift of the register as it now stands (R138). -/
def execShr (x : Reg) (s : State) : Result :=
  let t := s.writeFlag (lowBit (s.readV x))
  .next (t.writeV x (halfByte (t.readV x))).advance

/-- `SUBN Vx, Vy`: as `SUB` with the operands exchanged (R139). -/
def execSubn (x y : Reg) (s : State) : Result :=
  let t := s.writeFlag (notBorrow (s.readV y) (s.readV x))
  .next (t.writeV x (diffByte (t.readV y) (t.readV x))).advance

/-- `SHL Vx`: the flag first, then the shift of the register as it now stands (R140). -/
def execShl (x : Reg) (s : State) : Result :=
  let t := s.writeFlag (highBit (s.readV x))
  .next (t.writeV x (doubleByte (t.readV x))).advance

/-- `RND Vx, kk`: the next answer of the random source, masked (R141, R251). -/
def execRnd (x : Reg) (kk : Byte) (s : State) : Result := .next (s.dropRandom.writeV x (s.nextRandom &&& kk)).advance

end Sys2Proof.Machine
end

