-- ==== Sys2Proof/Machine/ControlFlow.lean ====
section
/-! DEFINITION. Control flow and skips (`40_control_flow.md` R100–R110). -/

namespace Sys2Proof.Machine

/-- `SYS nnn`: a no-op that advances (R100). -/
def execSys (_nnn : Addr) (s : State) : Result := .next s.advance

/-- `RET`: pop into `pc`, no advance; an empty stack is fatal (R101, R223). -/
def execRet (s : State) : Result :=
  if s.sp = 0 then .next (s.raise (.stackUnderflow (encode .ret) s.pc s.sp))
  else let t := s.dropSlot; .next (t.jump (t.stackSlot t.sp))

/-- `JP nnn` (R102). -/
def execJp (nnn : Addr) (s : State) : Result := .next (s.jump (zext16 nnn))

/-- `CALL nnn`: push `pc + 2`, then jump; a full stack is fatal (R103, R222). -/
def execCall (nnn : Addr) (s : State) : Result :=
  if s.sp = s.cfg.stackDepth then .next (s.raise (.stackOverflow (encode (.call nnn)) s.pc s.sp))
  else .next ((s.push (s.pc + 2)).jump (zext16 nnn))

/-- `SE Vx, kk` (R104). -/
def execSeImm (x : Reg) (kk : Byte) (s : State) : Result := .next (s.skipIf (s.readV x == kk))

/-- `SNE Vx, kk` (R105). -/
def execSneImm (x : Reg) (kk : Byte) (s : State) : Result := .next (s.skipIf (s.readV x != kk))

/-- `SE Vx, Vy` (R106). -/
def execSeReg (x y : Reg) (s : State) : Result := .next (s.skipIf (s.readV x == s.readV y))

/-- `SNE Vx, Vy` (R107). -/
def execSneReg (x y : Reg) (s : State) : Result := .next (s.skipIf (s.readV x != s.readV y))

/-- `JP V0, nnn`: the sum is kept as is, not reduced modulo 4096 (R108). -/
def execJpV0 (nnn : Addr) (s : State) : Result := .next (s.jump ((s.readV 0).setWidth 16 + zext16 nnn))

end Sys2Proof.Machine
end

