-- ==== Sys2Proof/Machine/Display.lean ====
section
/-! DEFINITION. The display surface and sprite compositing (`43_display.md` R180–R187). -/

namespace Sys2Proof.Machine

/-- `DISP[r][c]`. -/
def Grid.cell (g : Grid) (r : Fin 32) (c : Fin 64) : Bool := g[r][c]

/-- `DISP[r][c] <- b`. -/
def Grid.setCell (g : Grid) (r : Fin 32) (c : Fin 64) (b : Bool) : Grid := g.set r (g[r].set c b)

/-- A grid being drawn on, with the erasure recorded so far (R181, `erased`). -/
structure Canvas where
  grid : Grid
  erased : Bool
deriving DecidableEq, Repr

/-- One sprite bit: XOR it into its cell, and record a change from 1 to 0 (R182, R184). -/
def Canvas.drawBit (k : Canvas) (r : Fin 32) (c : Fin 64) (bit : Bool) : Canvas :=
  { grid := k.grid.setCell r c (k.grid.cell r c ^^ bit), erased := k.erased || (k.grid.cell r c && bit) }

/-- The row that sprite row `r` lands on: `(oy + r) mod 32` (R182). -/
def spriteRow (oy r : Nat) : Fin 32 := Fin.ofNat 32 (oy + r)

/-- The column that the bit of weight `2^k` lands on: `(ox + (7 - k)) mod 64`, the most significant bit leftmost (R183). -/
def spriteCol (ox k : Nat) : Fin 64 := Fin.ofNat 64 (ox + (7 - k))

/-- One sprite byte: its bits of weight index 0 to `count - 1`, in ascending order (R181). -/
def Canvas.drawBits (cv : Canvas) (ox : Nat) (r : Fin 32) (b : Byte) : Nat → Canvas
  | 0 => cv
  | k + 1 => (cv.drawBits ox r b k).drawBit r (spriteCol ox k) (b.getLsbD k)

/-- The sprite bytes from sprite row `r` on (R181, R182). -/
def Canvas.drawRows (cv : Canvas) (ox oy : Nat) : Nat → List Byte → Canvas
  | _, [] => cv
  | r, b :: bs => (cv.drawBits ox (spriteRow oy r) b 8).drawRows ox oy (r + 1) bs

/-- Composite a sprite at origin column `ox`, origin row `oy` (R182). -/
def compositeSprite (g : Grid) (ox oy : Nat) (bytes : List Byte) : Canvas :=
  Canvas.drawRows { grid := g, erased := false } ox oy 0 bytes

/-- Replace `DISP` and set `DIRTY` (R180, R185). -/
def State.setDisplay (s : State) (g : Grid) : State := { s with disp := g, dirty := true }

/-- The canvas that `DRW Vx, Vy, n` draws: origin and sprite read before any write (R181). -/
def State.drawnCanvas (s : State) (x y : Reg) (n : Nibble) : Canvas :=
  compositeSprite s.disp (s.readV x).toNat (s.readV y).toNat (s.spriteBytes n.toNat)

/-- `CLS` (R180). -/
def execCls (s : State) : Result := .next (s.setDisplay Grid.blank).advance

/-- `DRW Vx, Vy, n`: composite, mark dirty, then the collision into `V[0xF]` (R181). -/
def execDrw (x y : Reg) (n : Nibble) (s : State) : Result :=
  let c := s.drawnCanvas x y n
  .next ((s.setDisplay c.grid).writeFlag c.erased).advance

end Sys2Proof.Machine
end

