-- ==== Sys2Proof/Machine/IndexMemory.lean ====
section
/-! DEFINITION. Index register and memory transfers (`42_index_memory.md` R160–R165). No access changes `I` (D11). -/

namespace Sys2Proof.Machine

/-- `LD I, nnn` (R160). -/
def execLdI (nnn : Addr) (s : State) : Result := .next (s.writeI (zext16 nnn)).advance

/-- `ADD I, Vx`: modulo 65536, no flag (R161). -/
def execAddI (x : Reg) (s : State) : Result := .next (s.writeI (s.i + (s.readV x).setWidth 16)).advance

/-- `LD F, Vx`: the glyph address; `V[x] > 15` is fatal (R162, R224). -/
def execLdF (x : Reg) (s : State) : Result :=
  if 15 < (s.readV x).toNat then .next (s.raise (.glyphOutOfRange (encode (.ldF x)) s.pc (s.readV x)))
  else .next (s.writeI (BitVec.ofNat 16 ((s.readV x).toNat * 5))).advance

/-- `LD B, Vx`: hundreds, tens, ones at `I`, `I + 1`, `I + 2` (R163). -/
def execLdB (x : Reg) (s : State) : Result :=
  let v := s.readV x
  .next (((s.memWrite (s.indexAddr 0) (hundredsDigit v)).memWrite (s.indexAddr 1) (tensDigit v)).memWrite
    (s.indexAddr 2) (onesDigit v)).advance

/-- `LD [I], Vx`: `V[0..x]` to `MEM[I..I+x]`, inclusive (R164). -/
def execStoreRegs (x : Reg) (s : State) : Result := .next (s.storeRegsUpTo (x.val + 1)).advance

/-- `LD Vx, [I]`: `MEM[I..I+x]` to `V[0..x]`, inclusive (R165). -/
def execLoadRegs (x : Reg) (s : State) : Result := .next (s.loadRegsUpTo (x.val + 1)).advance

end Sys2Proof.Machine
end

