-- ==== Sys2Proof/Machine/TimersInput.lean ====
section
/-! DEFINITION. Timers and key input (`44_timers_input.md` R200–R205). -/

namespace Sys2Proof.Machine

/-- The key skips: one sample of key `k`; skip when its state is `want`; a failed sample leaves the instruction without effect
(R200, R201, R226). -/
def State.skipOnKey (s : State) (w : Word) (k : Key) (want : Bool) : State :=
  match s.nextSample with
  | .held keys => s.dropSample.skipIf (keys.contains k == want)
  | .failure => s.dropSample.signalInputFailure w

/-- `SKP Vx`: the range check, then the sample (R200, R225, R229). -/
def execSkp (x : Reg) (s : State) : Result :=
  if 15 < (s.readV x).toNat then .next (s.raise (.keyOutOfRange (encode (.skp x)) s.pc (s.readV x)))
  else .next (s.skipOnKey (encode (.skp x)) (Fin.ofNat 16 (s.readV x).toNat) true)

/-- `SKNP Vx`: the range check, then the sample (R201, R225, R229). -/
def execSknp (x : Reg) (s : State) : Result :=
  if 15 < (s.readV x).toNat then .next (s.raise (.keyOutOfRange (encode (.sknp x)) s.pc (s.readV x)))
  else .next (s.skipOnKey (encode (.sknp x)) (Fin.ofNat 16 (s.readV x).toNat) false)

/-- `LD Vx, DT` (R202). -/
def execLdVxDt (x : Reg) (s : State) : Result := .next (s.writeV x s.dt).advance

/-- Phase 1 of `LD Vx, K`: `STATUS <- Waiting(x)`; `pc` still addresses the instruction (R203). -/
def State.beginWait (s : State) (x : Reg) : State := { s with status := .waiting x }

/-- Phase 2 of `LD Vx, K`: `V[x] <- k`, `STATUS <- Running`, advance (R203). -/
def State.endWait (s : State) (x : Reg) (k : Key) : State :=
  { s.writeV x (BitVec.ofNat 8 k.val) with status := .running }.advance

/-- The host's wait failed: `STATUS` returns to `Running`, the instruction has no effect (R203, R226, R246). The word returned is that of
`LD Vx, K`, which a step that entered the wait has fetched (log 20). DESIGN CHOICE: it is also the one returned where the host set `STATUS` to
`Waiting(x)` and no word was fetched (log 27). -/
def State.abandonWait (s : State) (x : Reg) : State :=
  { s with status := .running }.signalInputFailure (encode (.ldVxK x))

/-- `LD Vx, K`, at the instruction event (R203, phase 1). -/
def execLdVxK (x : Reg) (s : State) : Result := .next (s.beginWait x)

/-- `LD DT, Vx` (R204). -/
def execLdDtVx (x : Reg) (s : State) : Result := .next { s with dt := s.readV x }.advance

/-- `LD ST, Vx` (R205). -/
def execLdStVx (x : Reg) (s : State) : Result := .next { s with st := s.readV x }.advance

end Sys2Proof.Machine
end

