-- ==== Sys2Proof/Machine/Scheduler.lean ====
section
/-! DEFINITION. The instruction cycle (`30_encoding.md` R85), the dual-rate scheduler and the timers (`60_exceptions.md` R240–R248), and the blocking wait (R246). -/

namespace Sys2Proof.Machine

/-- `P_I = 1000000 div EXEC_HZ` (R240). -/
def periodI (c : Config) : Nat := 1000000 / c.execHz

/-- `P_T = 1000000 div TIMER_HZ` (R240). -/
def periodT (c : Config) : Nat := 1000000 / c.timerHz

/-- One below, saturating at 0 (R242). -/
def decayByte (b : Byte) : Byte := if b = 0 then 0 else b - 1

/-- `TimerDecay()` (R242). -/
def State.timerDecay (s : State) : State := { s with dt := decayByte s.dt, st := decayByte s.st }

/-- `ExecuteOne()`: fetch, decode, perform; an illegal word is fatal (R85, R221). -/
def State.executeOne (s : State) : Result :=
  match decode s.fetch with
  | .instr i => exec i s
  | .illegal _ => .next (s.raise (.decodeError s.fetch s.pc))

/-- The second part of a step: the timer event, if due (R241). -/
def State.timerEvent (s : State) : State :=
  if s.accT = 0 then { s.timerDecay with accT := periodT s.cfg } else s

/-- The last part of a step: report the smaller accumulator and subtract it from both (R241). -/
def State.sleepUntilNext (s : State) : State :=
  let d := min s.accI s.accT
  { s with accI := s.accI - d, accT := s.accT - d, report := .sleep d }

/-- The step from `ACC_I <- P_I` on, after an instruction that completed (R241, R246). -/
def State.completeStep (s : State) : State :=
  { s with accI := periodI s.cfg }.timerEvent.sleepUntilNext

/-- How the step goes on after `ExecuteOne()`: a fatal error ends it (R227), a wait suspends it (R246), an input failure abandons it (R226),
else it is completed (R241). -/
def State.afterInstruction (s : State) : State :=
  match s.status with
  | .halted e => { s with report := .error e }
  | .waiting _ => { s with report := .suspended }
  | .running =>
    match s.report with
    | .inputFailure _ _ => s
    | _ => s.completeStep

/-- A step begins: nothing is reported yet, and a ROM can no longer be loaded (R255). -/
def State.beginStep (s : State) : State := { s with report := .idle, loadable := false }

/-- `SchedStep()`, for a machine that is `Running` (R241). -/
def State.schedStep (s : State) : Result :=
  let t := s.beginStep
  if t.accI = 0 then
    match t.executeOne with
    | .next u => .next u.afterInstruction
    | .fault f => .fault f
    | .refused r => .refused r
  else .next t.timerEvent.sleepUntilNext

/-- The host delivers the key press that ends a wait: phase 2, then the suspended step completes (R246). DESIGN CHOICE: the
same where the host set `STATUS` to `Waiting(x)` and no step was suspended (log 27). -/
def State.deliverKey (s : State) (x : Reg) (k : Key) : State := (s.endWait x k).completeStep

/-- `Step()`: enabled only when `Running`; a suspended step stays suspended; in `Halted` no step is enabled (R241, R246, R247). -/
def State.hostStep (s : State) : Result :=
  match s.status with
  | .running => s.schedStep
  | .waiting _ => .next s
  | .halted e => .fault (.halted e)

end Sys2Proof.Machine
end

