-- ==== Sys2Proof/Machine/HostActions.lean ====
section
/-! DEFINITION. What the host does to the machine (`60_exceptions.md` R249–R255, `43_display.md` R186, `70_reset_and_hazards.md` R260–R265). -/

namespace Sys2Proof.Machine

/-- `Redraw()` (R186). -/
def State.redraw (s : State) : State := if s.dirty then { s with prev := s.disp, dirty := false } else s

/-- A key event: it ends a wait (R246, R253); outside a wait it reaches nothing, since the core holds no key state (R34; log 14). -/
def State.keyEvent (s : State) (e : KeyEvent) : State :=
  match s.status with
  | .waiting x =>
    match e with
    | .press k => s.deliverKey x k
    | .failure => s.abandonWait x
  | _ => s

/-- `HaltOnInputFailure()`: the host declares the failure that the last step returned fatal (R226; log 15). -/
def State.haltOnInputFailure (s : State) : Result :=
  match s.status, s.report with
  | .running, .inputFailure w pc => .next (s.raise (.inputFailure w pc))
  | _, _ => .refused .noInputFailure

/-- `Load(rom)`: directly after reset, at most `4096 - PROGRAM_ORIGIN` bytes (R255, R265). -/
def State.loadRom (s : State) (rom : List Byte) : Result :=
  if !s.loadable then .refused .loadNotAfterReset
  else if memSize - s.cfg.programOrigin < rom.length then .refused .romTooLong
  else .next { s.memWriteList s.cfg.programOrigin rom with loadable := false }

/-- `Reset()` under a configuration: the machine is reset; what the host will do and answer is not the machine's (R260; log 16). -/
def State.resetUnder (s : State) (c : Config) : State :=
  { State.resetWith c with actions := s.actions, randoms := s.randoms, samples := s.samples, draws := s.draws }

/-- Boot steps (1) and (2): a configuration within its bounds, then `Reset()` (R264, D4). -/
def State.boot (s : State) (c : Config) : Result :=
  if c.valid then .next (s.resetUnder c) else .refused .invalidConfig

/-- The value is in its element's range: `STACK` has `STACK_DEPTH` slots, `0 <= SP <= STACK_DEPTH` (R26), and each accumulator is bounded by its
period (R30). The other elements take every value of their types. -/
def HostWrite.inRange (c : Config) : HostWrite → Bool
  | .slot k _ => decide (k < c.stackDepth)
  | .sp n => decide (n ≤ c.stackDepth)
  | .accI n => decide (n ≤ periodI c)
  | .accT n => decide (n ≤ periodT c)
  | .v _ _ | .i _ | .pc _ | .dt _ | .st _ | .mem _ _ | .disp _ _ _ | .prev _ _ _ | .dirty _ | .status _ => true

/-- The host sets one element, and that element only (R264, D25); a `Load` after it set `STATUS` is no longer directly after reset (log 24). -/
def State.applyHostWrite (s : State) : HostWrite → State
  | .v x b => s.writeV x b
  | .i w => s.writeI w
  | .pc w => s.jump w
  | .dt b => { s with dt := b }
  | .st b => { s with st := b }
  | .mem a b => s.memWrite a b
  | .slot k w => { s with stack := s.stack.set k w }
  | .sp n => { s with sp := n }
  | .accI n => { s with accI := n }
  | .accT n => { s with accT := n }
  | .disp r c b => { s with disp := s.disp.setCell r c b }
  | .prev r c b => { s with prev := s.prev.setCell r c b }
  | .dirty b => { s with dirty := b }
  | .status x => { s with status := x, loadable := false }

/-- The host initialises state: between reset and the first step only (R264, D25; log 24). -/
def State.initialise (s : State) (w : HostWrite) : Result :=
  match s.status, s.report with
  | .running, .idle => if w.inRange s.cfg then .next (s.applyHostWrite w) else .refused .outOfRange
  | _, _ => .refused .afterFirstStep

/-- One host action (R250). DESIGN CHOICE: `reset` and `boot` are admitted in every status, so that they also end a key wait (log 26). -/
def State.act (s : State) : HostAction → Result
  | .step => s.hostStep
  | .keyPress k => .next (s.keyEvent (.press k))
  | .keyFailure => .next (s.keyEvent .failure)
  | .redraw => .next s.redraw
  | .haltOnInputFailure => s.haltOnInputFailure
  | .load rom => s.loadRom rom
  | .reset => .next (s.resetUnder s.cfg)
  | .boot c => s.boot c
  | .initialise w => s.initialise w

/-- One turn of a key wait with no host action listed: the free value says whether the wait ends now (R253; log 8). -/
def State.waitTurn (s : State) : State :=
  let t := { s with draws := s.draws + 1 }
  match Config.freeKeyEvent s.draws with
  | none => t
  | some e => t.keyEvent e

/-- One turn with no host action listed: the host steps a running machine, and a suspended one waits for its key (log 9). -/
def State.freeTurn (s : State) : Result :=
  match s.status with
  | .waiting _ => .next s.waitTurn
  | _ => s.hostStep

/-- One turn of the machine and its host: the oldest listed action, else a free turn. -/
def State.turn (s : State) : Result :=
  match s.actions with
  | a :: rest => { s with actions := rest }.act a
  | [] => s.freeTurn

/-- The machine with an instruction's two bytes where its next fetch reads them, and its next step an instruction event (log 18). -/
def State.placeInstruction (s : State) (w : Word) : State :=
  { (s.memWrite s.pc.toNat (bytesOfWord w).1).memWrite (s.pc.toNat + 1) (bytesOfWord w).2 with
    status := .running, accI := 0, actions := [] }

end Sys2Proof.Machine
end

