-- ==== Sys2Proof/Machine/Step.lean ====
section
/-! DEFINITION. The step, and the placing of one instruction where the step fetches it. -/

namespace Sys2Proof.Machine

/-- One turn of the machine and its host: a scheduler step, or the host action listed first (`60_exceptions.md` R241, R249, R250). -/
def step (s : State) : Host.Outcome State Fault Refusal := s.turn

/-- `s` with the word `w` (its bits numbered as the opcode table numbers them, those above `nbits` 0) where `step` fetches next (log 18). -/
def State.withFetchWord (s : State) (nbits w : Nat) : State := s.placeInstruction (BitVec.ofNat 16 (w % 2 ^ nbits))

end Sys2Proof.Machine
end

