-- ==== Sys2Proof/Safety.lean ====
section
/-! DEFINITION. The terms claims use: the invariant of the machine, a safe run, and simulated time over the scheduler's steps. -/

namespace Sys2Proof.Machine

/-- Both accumulators within their periods, and at least one of them 0 (`10_state.md` R30, `60_exceptions.md` R243). -/
def State.accOk (s : State) : Prop :=
  s.accI ≤ periodI s.cfg ∧ s.accT ≤ periodT s.cfg ∧ (s.accI = 0 ∨ s.accT = 0)

/-- The stack has `STACK_DEPTH` slots and `0 <= SP <= STACK_DEPTH` (R26). -/
def State.stackOk (s : State) : Prop := s.stack.length = s.cfg.stackDepth ∧ s.sp ≤ s.cfg.stackDepth

/-- Memory is in its canonical form. -/
def State.memOk (s : State) : Prop := Memory.wf s.cfg.glyphs s.mem = true

/-- The display needs a redraw whenever it differs from what was shown (R32). -/
def State.dirtyOk (s : State) : Prop := s.disp ≠ s.prev → s.dirty = true

/-- `ACC_I` is still 0, and no ROM can be loaded any more, while a step is suspended, after an abandoned one, and after a fatal error
(R226, R227, R246, R255). -/
def State.eventOk (s : State) : Prop :=
  (s.status ≠ .running → s.accI = 0 ∧ s.loadable = false) ∧
  (∀ w pc, s.report = .inputFailure w pc → s.accI = 0 ∧ s.loadable = false)

/-- The invariant of the machine. -/
structure State.Inv (s : State) : Prop where
  config : s.cfg.valid = true
  stack  : s.stackOk
  mem    : s.memOk
  acc    : s.accOk
  dirty  : s.dirtyOk
  event  : s.eventOk

/-- What a host that initialises an element owes to the invariant: a picture not yet shown is `DIRTY` (R32), one accumulator is 0 (R243), and a
machine that waits or is halted has `ACC_I = 0` (R227, R246). The other elements owe nothing. -/
def HostWrite.owes (s : State) : HostWrite → Prop
  | .disp r c b => s.disp.setCell r c b ≠ s.prev → s.dirty = true
  | .prev r c b => s.disp ≠ s.prev.setCell r c b → s.dirty = true
  | .dirty b => s.disp ≠ s.prev → b = true
  | .accI n => n = 0 ∨ s.accT = 0
  | .accT n => s.accI = 0 ∨ n = 0
  | .status x => x ≠ .running → s.accI = 0
  | .v _ _ | .i _ | .pc _ | .dt _ | .st _ | .mem _ _ | .slot _ _ | .sp _ => True

/-- No fatal error has happened (R227). -/
def State.Healthy (s : State) : Prop := ∀ e, s.status ≠ .halted e

/-- A run of `k` steps that stops nowhere and meets no fatal error. -/
def SafeRun (k : Nat) (s : State) : Prop :=
  ∀ j, j ≤ k → ∃ t, Sys2Proof.core.run j s = .next t ∧ State.Healthy t

/-- A 1-bit of the sprite that `DRW Vx, Vy, n` draws lands on cell `(r, c)`: bit `k` of sprite byte `i` goes to row `(V[y] + i) mod 32`,
column `(V[x] + 7 - k) mod 64` (R182, R183). -/
def spriteCovers (s : State) (x y : Reg) (n : Nibble) (r : Fin 32) (c : Fin 64) : Prop :=
  ∃ i k, i < n.toNat ∧ k < 8 ∧ ((s.readV y).toNat + i) % 32 = r.val ∧ ((s.readV x).toNat + (7 - k)) % 64 = c.val ∧
    (s.memRead (s.i.toNat + i)).getLsbD k = true

/-- Simulated time in microseconds, and how many instruction events and timer decays have happened (R244, R245). -/
structure Clock where
  time   : Nat
  events : Nat
  decays : Nat
deriving DecidableEq, Repr

/-- The clock after a step from `s` that reported the sleep `d`: the events due in `s` have happened (R241, R245). -/
def Clock.after (c : Clock) (s : State) (d : Nat) : Clock :=
  { time := c.time + d, events := c.events + (if s.accI = 0 then 1 else 0), decays := c.decays + (if s.accT = 0 then 1 else 0) }

/-- What the scheduler and the host make of a machine whose accumulators are both 0, as reset leaves them (R266), with the clock
beside it: steps that complete, steps that do not, waits that end or fail, and redraws. -/
inductive ScheduledRun : State → Clock → Prop
  | start (s : State) : s.accI = 0 → s.accT = 0 → s.status = .running → ScheduledRun s ⟨0, 0, 0⟩
  | slept (s t : State) (c : Clock) (d : Nat) :
      ScheduledRun s c → s.status = .running → s.schedStep = .next t → t.report = .sleep d → ScheduledRun t (c.after s d)
  | ended (s t : State) (c : Clock) :
      ScheduledRun s c → s.status = .running → s.schedStep = .next t → (∀ d, t.report ≠ .sleep d) → ScheduledRun t c
  | resumed (s : State) (c : Clock) (x : Reg) (k : Key) (d : Nat) :
      ScheduledRun s c → s.status = .waiting x → (s.deliverKey x k).report = .sleep d → ScheduledRun (s.deliverKey x k) (c.after s d)
  | abandoned (s : State) (c : Clock) (x : Reg) :
      ScheduledRun s c → s.status = .waiting x → ScheduledRun (s.abandonWait x) c
  | redrawn (s : State) (c : Clock) : ScheduledRun s c → ScheduledRun s.redraw c

/-! ### What each instruction may write, as the spec's register and memory rules list it -/

/-- Register `q` is a destination of the instruction, or its implicit flag (R20, R21). `LD Vx, K` writes its register when its wait ends,
not when it executes (R203). -/
def writesReg : Instr → Reg → Bool
  | .ldImm x _, q | .addImm x _, q | .ldReg x _, q | .orReg x _, q | .andReg x _, q | .xorReg x _, q | .rnd x _, q
  | .ldVxDt x, q => q == x
  | .addReg x _, q | .sub x _, q | .shr x, q | .subn x _, q | .shl x, q => q == x || q == flagReg
  | .drw _ _ _, q => q == flagReg
  | .loadRegs x, q => decide (q ≤ x)
  | .sys _, _ | .cls, _ | .ret, _ | .jp _, _ | .call _, _ | .seImm _ _, _ | .sneImm _ _, _ | .seReg _ _, _ | .sneReg _ _, _
  | .ldI _, _ | .jpV0 _, _ | .skp _, _ | .sknp _, _ | .ldVxK _, _ | .ldDtVx _, _ | .ldStVx _, _ | .addI _, _ | .ldF _, _ | .ldB _, _
  | .storeRegs _, _ => false

/-- How many bytes at `I` the instruction stores (R51). -/
def storeCount : Instr → Nat
  | .ldB _ => 3
  | .storeRegs x => x.val + 1
  | .sys _ | .cls | .ret | .jp _ | .call _ | .seImm _ _ | .sneImm _ _ | .seReg _ _ | .ldImm _ _ | .addImm _ _ | .ldReg _ _ | .orReg _ _
  | .andReg _ _ | .xorReg _ _ | .addReg _ _ | .sub _ _ | .shr _ | .subn _ _ | .shl _ | .sneReg _ _ | .ldI _ | .jpV0 _ | .rnd _ _
  | .drw _ _ _ | .skp _ | .sknp _ | .ldVxDt _ | .ldVxK _ | .ldDtVx _ | .ldStVx _ | .addI _ | .ldF _ | .loadRegs _ => 0

/-- The conditional skips (R104–R107, R200, R201). -/
def isSkip : Instr → Bool
  | .seImm _ _ | .sneImm _ _ | .seReg _ _ | .sneReg _ _ | .skp _ | .sknp _ => true
  | .sys _ | .cls | .ret | .jp _ | .call _ | .ldImm _ _ | .addImm _ _ | .ldReg _ _ | .orReg _ _ | .andReg _ _ | .xorReg _ _ | .addReg _ _
  | .sub _ _ | .shr _ | .subn _ _ | .shl _ | .ldI _ | .jpV0 _ | .rnd _ _ | .drw _ _ _ | .ldVxDt _ | .ldVxK _ | .ldDtVx _ | .ldStVx _
  | .addI _ | .ldF _ | .ldB _ | .storeRegs _ | .loadRegs _ => false

/-- The control transfers, which write `pc` themselves (R86). -/
def isTransfer : Instr → Bool
  | .ret | .jp _ | .call _ | .jpV0 _ => true
  | .sys _ | .cls | .seImm _ _ | .sneImm _ _ | .seReg _ _ | .sneReg _ _ | .skp _ | .sknp _ | .ldImm _ _ | .addImm _ _ | .ldReg _ _
  | .orReg _ _ | .andReg _ _ | .xorReg _ _ | .addReg _ _ | .sub _ _ | .shr _ | .subn _ _ | .shl _ | .ldI _ | .rnd _ _ | .drw _ _ _
  | .ldVxDt _ | .ldVxK _ | .ldDtVx _ | .ldStVx _ | .addI _ | .ldF _ | .ldB _ | .storeRegs _ | .loadRegs _ => false

/-- The bits of a word that an instruction reads or that select it: all but `y` of the shifts and `n` of the register skips (R82). -/
def significantBits : Instr → Word
  | .shr _ | .shl _ => 0xFF0F
  | .seReg _ _ | .sneReg _ _ => 0xFFF0
  | .sys _ | .cls | .ret | .jp _ | .call _ | .seImm _ _ | .sneImm _ _ | .ldImm _ _ | .addImm _ _ | .ldReg _ _ | .orReg _ _ | .andReg _ _
  | .xorReg _ _ | .addReg _ _ | .sub _ _ | .subn _ _ | .ldI _ | .jpV0 _ | .rnd _ _ | .drw _ _ _ | .skp _ | .sknp _ | .ldVxDt _
  | .ldVxK _ | .ldDtVx _ | .ldStVx _ | .addI _ | .ldF _ | .ldB _ | .storeRegs _ | .loadRegs _ => 0xFFFF

/-- The word is illegal (R83). -/
def isIllegal (w : Word) : Bool :=
  match decode w with
  | .instr _ => false
  | .illegal _ => true

/-- 1 if the comparison holds, else 0: a flag as a number. -/
def bitOf (b : Bool) : Nat := if b then 1 else 0

end Sys2Proof.Machine
end

