-- ==== Sys2Proof/Certificates/Slice0/Obligations.lean ====
section
/-! DEFINITION. The statements for the provers. -/

open Sys2Proof Sys2Proof.Machine

/-! ### Encoding and decoding (`30_encoding.md`) -/

/-- Every well-formed instruction, with every operand at every value its field admits, is what its encoding decodes to (R75–R81). -/
def Obligations.DecodeOfEncodeIsInstruction : Prop :=
  ∀ i : Instr, i.wf = true → decode (encode i) = .instr i

/-- A decoded word is a well-formed instruction's encoding, up to the bits that instruction ignores: `y` of `SHR` and `SHL`, `n` of
`SE Vx, Vy` and `SNE Vx, Vy` (R82). -/
def Obligations.DecodedWordEncodesBack : Prop :=
  ∀ (w : Word) (i : Instr), decode w = .instr i → i.wf = true ∧ encode i = w &&& significantBits i

/-- A word decodes to an instruction of the row whose mask and match it meets; only `SYS` yields, to `CLS` and `RET` (R76, R77). -/
def Obligations.WordDecodesByItsTableRow : Prop :=
  (∀ (w : Word) (j : Instr), decode w = .instr j → w &&& j.row.mask = j.row.value) ∧
  (∀ (w : Word) (i : Instr), w &&& i.row.mask = i.row.value →
    ∃ j, decode w = .instr j ∧ (j.row = i.row ∨ ((∃ nnn, i = .sys nnn) ∧ (j = .cls ∨ j = .ret))))

/-- The illegal words are exactly the unlisted secondary codes of types 8, E and F: 7 for each of the 256 `x`, `y` of type 8, and 254 and 247 for each of
the 16 `x` of types E and F; executing one raises `DecodeError` with the word and `pc` and changes nothing else (R83). -/
def Obligations.IllegalWordsAreExactlyListed : Prop :=
  (∀ w : Word, isIllegal w = true ↔
    (typeField w = 0x8 ∧ nField w ∈ [0x8, 0x9, 0xA, 0xB, 0xC, 0xD, 0xF]) ∨
    (typeField w = 0xE ∧ kkField w ∉ [0x9E, 0xA1]) ∨
    (typeField w = 0xF ∧ kkField w ∉ [0x07, 0x0A, 0x15, 0x18, 0x1E, 0x29, 0x33, 0x55, 0x65])) ∧
  (∀ x y : Reg, ((List.range 16).countP fun n => isIllegal (wordXYN 0x8 x y (BitVec.ofNat 4 n))) = 7) ∧
  (∀ x : Reg, ((List.range 256).countP fun kk => isIllegal (wordXKK 0xE x (BitVec.ofNat 8 kk))) = 254) ∧
  (∀ x : Reg, ((List.range 256).countP fun kk => isIllegal (wordXKK 0xF x (BitVec.ofNat 8 kk))) = 247) ∧
  (∀ s : State, isIllegal s.fetch = true →
    s.executeOne = .next { s with status := .halted (.decodeError s.fetch s.pc) })

/-- Words written out from the map of R76–R80 decode to the instructions they stand for. -/
def Obligations.SampleWordsDecode : Prop :=
  decode 0x0123 = .instr (.sys 0x123) ∧ decode 0x00E0 = .instr .cls ∧ decode 0x00EE = .instr .ret ∧
  decode 0x6A7B = .instr (.ldImm 0xA 0x7B) ∧ decode 0x8124 = .instr (.addReg 1 2) ∧ decode 0x8406 = .instr (.shr 4) ∧
  decode 0xA300 = .instr (.ldI 0x300) ∧ decode 0xF265 = .instr (.loadRegs 2) ∧ decode 0xD232 = .instr (.drw 2 3 2) ∧
  decode 0xE59E = .instr (.skp 5) ∧ decode 0xF20A = .instr (.ldVxK 2) ∧ decode 0x8108 = .illegal (.aluCode 8)

/-! ### The step (`30_encoding.md` R85, `60_exceptions.md` section 3) -/

/-- With no host action listed, a running machine whose instruction event is due executes the instruction that the bytes at `pc`
decode to, and goes on as its outcome says (R85, R241). -/
def Obligations.StepRunsDecodedInstruction : Prop :=
  ∀ (s : State) (i : Instr), s.actions = [] → s.status = .running → s.accI = 0 →
    decode (wordOfBytes (s.memRead s.pc.toNat) (s.memRead (s.pc.toNat + 1))) = .instr i →
    step s =
      match exec i { s with report := .idle, loadable := false } with
      | .next u => .next u.afterInstruction
      | .fault f => .fault f
      | .refused r => .refused r

/-- Placing a well-formed instruction's word makes the next step that instruction's (the model's own `withFetchWord`; log 18). -/
def Obligations.StepRunsPlacedInstruction : Prop :=
  ∀ (s : State) (i : Instr), s.memOk → i.wf = true →
    step (s.withFetchWord 16 (encode i).toNat) =
      match exec i { s.withFetchWord 16 (encode i).toNat with report := .idle, loadable := false } with
      | .next u => .next u.afterInstruction
      | .fault f => .fault f
      | .refused r => .refused r

/-- After an instruction that completes: `ACC_I <- P_I`; then the timer event if due, after the instruction; then the smaller
accumulator is reported and subtracted from both (R241). -/
def Obligations.CompletedInstructionStep : Prop :=
  ∀ (s u : State) (i : Instr), s.actions = [] → s.status = .running → s.accI = 0 → decode s.fetch = .instr i →
    exec i { s with report := .idle, loadable := false } = .next u → u.status = .running →
    (∀ w p, u.report ≠ .inputFailure w p) →
    ∀ T d : Nat, T = (if s.accT = 0 then periodT s.cfg else s.accT) → d = min (periodI s.cfg) T →
      step s = .next { u with
        dt := if s.accT = 0 then decayByte u.dt else u.dt, st := if s.accT = 0 then decayByte u.st else u.st,
        accI := periodI s.cfg - d, accT := T - d, report := .sleep d }

/-- A step with no instruction due performs none: only the timers and the accumulators move (R241). -/
def Obligations.StepWithoutInstructionEvent : Prop :=
  ∀ s : State, s.actions = [] → s.status = .running → s.accI ≠ 0 →
    ∀ T d : Nat, T = (if s.accT = 0 then periodT s.cfg else s.accT) → d = min s.accI T →
      step s = .next { s with
        dt := if s.accT = 0 then decayByte s.dt else s.dt, st := if s.accT = 0 then decayByte s.st else s.st,
        accI := s.accI - d, accT := T - d, report := .sleep d, loadable := false }

/-- Timer decay: each timer one below, and never below zero (R242). -/
def Obligations.TimerDecaySaturatesAtZero : Prop :=
  ∀ s : State, s.timerDecay = { s with dt := s.timerDecay.dt, st := s.timerDecay.st } ∧
    s.timerDecay.dt.toNat = s.dt.toNat - 1 ∧ s.timerDecay.st.toNat = s.st.toNat - 1

/-- The periods are the quotients rounded down; under the bounds of the configuration the instruction period is at least 1 and at most the
timer period (R240). -/
def Obligations.PeriodsRoundDown : Prop :=
  (∀ c : Config, periodI c = 1000000 / c.execHz ∧ periodT c = 1000000 / c.timerHz) ∧
  (∀ c : Config, c.valid = true → 1 ≤ periodI c ∧ periodI c ≤ periodT c) ∧
  (∀ c : Config, c.execHz = 500 → c.timerHz = 60 → periodI c = 2000 ∧ periodT c = 16666)

/-- A fatal error ends the step at once: the state is that before the step but for `STATUS` (and the model's own report and load
permission); the accumulators are not updated and no timer decays (R227). -/
def Obligations.FatalErrorEndsStep : Prop :=
  ∀ s : State, s.actions = [] → s.status = .running → s.accI = 0 →
    (∀ (i : Instr) (u : State) (e : FatalError), decode s.fetch = .instr i →
      exec i { s with report := .idle, loadable := false } = .next u → u.status = .halted e →
      step s = .next { s with status := .halted e, report := .error e, loadable := false }) ∧
    (isIllegal s.fetch = true →
      step s = .next { s with
        status := .halted (.decodeError s.fetch s.pc), report := .error (.decodeError s.fetch s.pc), loadable := false })

/-- Errors are precise: an instruction that halts a running machine changes nothing but `STATUS`, and it is one of `RET` on an empty stack, `CALL`
on a full one, `LD F` with a value above 15, a key skip with a value above 15, each with its record (R220–R225, R227). -/
def Obligations.InstructionErrorsArePrecise : Prop :=
  ∀ (i : Instr) (s t : State) (e : FatalError), exec i s = .next t → s.status = .running → t.status = .halted e →
    t = { s with status := .halted e } ∧
    ((i = .ret ∧ s.sp = 0 ∧ e = .stackUnderflow 0x00EE s.pc 0) ∨
     (∃ nnn, i = .call nnn ∧ s.sp = s.cfg.stackDepth ∧ e = .stackOverflow (encode i) s.pc s.sp) ∨
     (∃ x, i = .ldF x ∧ 15 < (s.readV x).toNat ∧ e = .glyphOutOfRange (encode i) s.pc (s.readV x)) ∨
     (∃ x, (i = .skp x ∨ i = .sknp x) ∧ 15 < (s.readV x).toNat ∧ e = .keyOutOfRange (encode i) s.pc (s.readV x)))

/-- Every instruction, in every state, answers a next state: none stops the model. -/
def Obligations.EveryInstructionAnswersNext : Prop :=
  ∀ (i : Instr) (s : State), ∃ t, exec i s = .next t

/-- `Halted` is permanent: no step is enabled (asked for one, or left alone, the machine answers the fault that names its error), and of what the host
can still do only a reset leaves it; anything else changes at most `PREV` and `DIRTY` (R227, R247, R249). -/
def Obligations.HaltedIsPermanent : Prop :=
  ∀ (s : State) (e : FatalError), s.status = .halted e → s.loadable = false →
    (s.actions = [] → step s = .fault (.halted e)) ∧
    (∀ rest, s.actions = .step :: rest → step s = .fault (.halted e)) ∧
    (∀ t, step s = .next t → s.actions.head? ≠ some .reset → (∀ c, s.actions.head? ≠ some (.boot c)) →
      t = { s with prev := t.prev, dirty := t.dirty, actions := s.actions.tail })

/-- A failed key sample abandons the step: nothing changes but the model's own report, load permission and sample list, and the step returns
`InputFailure(w, pc)` (R226). -/
def Obligations.FailedSampleAbandonsStep : Prop :=
  ∀ (s : State) (x : Reg) (ks : List KeySample), s.actions = [] → s.status = .running → s.accI = 0 →
    (decode s.fetch = .instr (.skp x) ∨ decode s.fetch = .instr (.sknp x)) → (s.readV x).toNat ≤ 15 → s.samples = .failure :: ks →
    step s = .next { s with samples := ks, loadable := false, report := .inputFailure s.fetch s.pc }

/-- The host may declare a returned input failure fatal; with no failure returned the declaration is refused (R226; the refusal is log 15's). -/
def Obligations.HostHaltsOnInputFailure : Prop :=
  (∀ (s : State) (w p : Word) (rest : List HostAction), s.actions = .haltOnInputFailure :: rest → s.status = .running →
    s.report = .inputFailure w p → step s = .next { s with status := .halted (.inputFailure w p), actions := rest }) ∧
  (∀ (s : State) (rest : List HostAction), s.actions = .haltOnInputFailure :: rest → (∀ w p, s.report ≠ .inputFailure w p) →
    step s = .refused .noInputFailure)

/-! ### The blocking wait (`60_exceptions.md` R246) -/

/-- A key press ends the wait: phase 2, then the suspended step completes from `ACC_I <- P_I` on. A failure of the host's wait returns `STATUS` to
`Running` and leaves the instruction without effect (R203, R246). That both also hold of a wait that the host itself set up, the word being `LD Vx, K`'s, is the model's choice (log 27). -/
def Obligations.KeyEventsEndWait : Prop :=
  ∀ (s : State) (x : Reg) (rest : List HostAction), s.status = .waiting x →
    (∀ (k : Key) (T d : Nat), s.actions = .keyPress k :: rest → T = (if s.accT = 0 then periodT s.cfg else s.accT) →
      d = min (periodI s.cfg) T →
      step s = .next { s with
        v := s.v.set x (BitVec.ofNat 8 k.val), status := .running, pc := s.pc + 2,
        dt := if s.accT = 0 then decayByte s.dt else s.dt, st := if s.accT = 0 then decayByte s.st else s.st,
        accI := periodI s.cfg - d, accT := T - d, report := .sleep d, actions := rest }) ∧
    (s.actions = .keyFailure :: rest →
      step s = .next { s with status := .running, report := .inputFailure (encode (.ldVxK x)) s.pc, actions := rest })

/-- While a step is suspended, whatever the host does but reset, either the wait goes on with everything but `PREV`, `DIRTY` and the model's own
host fields unchanged, so that no instruction executes, no timer decays and no time passes, or a key press or a failure has ended
it (R246, R272). -/
def Obligations.WaitStopsTheMachine : Prop :=
  ∀ (s t : State) (x : Reg), s.status = .waiting x → s.loadable = false → step s = .next t →
    s.actions.head? ≠ some .reset → (∀ c, s.actions.head? ≠ some (.boot c)) →
    t = { s with prev := t.prev, dirty := t.dirty, actions := s.actions.tail, draws := t.draws } ∨
    (∃ k : Key, t = State.deliverKey { s with actions := s.actions.tail, draws := t.draws } x k) ∨
    t = State.abandonWait { s with actions := s.actions.tail, draws := t.draws } x

/-! ### Time and invariants -/

/-- Every step of the machine and every action of its host keeps the invariant, an initialisation of the display, an accumulator or `STATUS` by the host
where the host keeps what it owes (log 24): a legal configuration, a stack within its bounds, memory in its canonical form, the
accumulators within their periods with one of them 0, `DIRTY` whenever the picture differs from what was shown, and `ACC_I` still 0 while a
step is suspended, abandoned or ended by an error. -/
def Obligations.StepKeepsInvariant : Prop :=
  ∀ s t : State, s.Inv → (∀ w, s.actions.head? = some (.initialise w) → w.owes s) → step s = .next t → t.Inv

/-- Reset meets the invariant, under every legal configuration and under the default one. -/
def Obligations.ResetMeetsInvariant : Prop :=
  (∀ c : Config, c.valid = true → (State.resetWith c).Inv) ∧ State.reset.Inv

/-- After every completed step both accumulators are within their periods, one of them is 0, and the reported sleep is at least 1 (R243). -/
def Obligations.CompletedStepSleepsAtLeastOne : Prop :=
  ∀ (s t : State) (d : Nat), s.cfg.valid = true → s.accOk → s.status = .running → s.schedStep = .next t → t.report = .sleep d →
    1 ≤ d ∧ t.accI ≤ periodI s.cfg ∧ t.accT ≤ periodT s.cfg ∧ (t.accI = 0 ∨ t.accT = 0)

/-- In simulated time, instruction event `i` falls at `i * P_I` and timer decay `j` at `j * P_T`, whatever the instructions do and however long the
waits last; `ceil(i * P_I / P_T)` decays come before instruction event `i` (R244). -/
def Obligations.EventsFallOnTheirPeriods : Prop :=
  ∀ (s : State) (c : Clock), s.cfg.valid = true → ScheduledRun s c →
    (s.accI = 0 → c.time = c.events * periodI s.cfg ∧
      c.decays = (c.events * periodI s.cfg + periodT s.cfg - 1) / periodT s.cfg) ∧
    (s.accT = 0 → c.time = c.decays * periodT s.cfg)

/-! ### Reset, boot and the host (`70_reset_and_hazards.md`, `43_display.md` R186) -/

/-- `Reset()` from any state (that the host may also call it during a key wait is the model's choice, log 26): every element zeroed, the glyphs at 0–79 and 0 elsewhere in memory, `pc` at the program origin, `Running` (R260). -/
def Obligations.ResetZeroesEverything : Prop :=
  ∀ (s : State) (rest : List HostAction), s.actions = .reset :: rest →
    ∃ t, step s = .next t ∧ (∀ q, t.readV q = 0) ∧ t.i = 0 ∧ t.stack = List.replicate s.cfg.stackDepth 0 ∧ t.sp = 0 ∧ t.dt = 0 ∧ t.st = 0 ∧
      t.accI = 0 ∧ t.accT = 0 ∧ (∀ r c, t.disp.cell r c = false ∧ t.prev.cell r c = false) ∧ t.dirty = false ∧
      (∀ a, (h : a < 80) → t.memRead a = s.cfg.glyphs[a]) ∧ (∀ a, 80 ≤ a → a < 4096 → t.memRead a = 0) ∧
      t.pc = BitVec.ofNat 16 s.cfg.programOrigin ∧ t.status = .running ∧ t.cfg = s.cfg

/-- From accumulators both 0, as reset leaves them, a first step whose instruction completes also performs a timer decay and reports `P_I` (R266). -/
def Obligations.FirstStepReportsInstructionPeriod : Prop :=
  ∀ (s u : State) (i : Instr), s.cfg.valid = true → s.actions = [] → s.status = .running → s.accI = 0 → s.accT = 0 →
    decode s.fetch = .instr i → exec i { s with report := .idle, loadable := false } = .next u → u.status = .running →
    (∀ w p, u.report ≠ .inputFailure w p) →
    step s = .next { u with
      dt := decayByte u.dt, st := decayByte u.st, accI := 0, accT := periodT s.cfg - periodI s.cfg, report := .sleep (periodI s.cfg) }

/-- `Load(rom)` after reset writes the bytes at the program origin and nothing else; a longer ROM is refused (R255). -/
def Obligations.LoadWritesRomAtOrigin : Prop :=
  ∀ (s : State) (rom : List Byte) (rest : List HostAction), s.actions = .load rom :: rest → s.loadable = true →
    (rom.length ≤ 4096 - s.cfg.programOrigin → s.memOk →
      ∃ t, step s = .next t ∧ t = { s with mem := t.mem, actions := rest, loadable := false } ∧
        (∀ j, (h : j < rom.length) → t.memRead (s.cfg.programOrigin + j) = rom[j]) ∧
        (∀ a, a < 4096 → (a < s.cfg.programOrigin ∨ s.cfg.programOrigin + rom.length ≤ a) → t.memRead a = s.memRead a)) ∧
    (4096 - s.cfg.programOrigin < rom.length → step s = .refused .romTooLong)

/-- A host may set every element of R35 between reset and the first step, to any value in its range, and none after it (R264, D25); the two refusals
and what `STATUS` does to the load permission are the model's (log 24). -/
def Obligations.HostInitialisesBeforeFirstStep : Prop :=
  (∀ (s : State) (rest : List HostAction), s.status = .running → s.report = .idle →
    (∀ x b, s.actions = .initialise (.v x b) :: rest → step s = .next { s with v := s.v.set x b, actions := rest }) ∧
    (∀ w, s.actions = .initialise (.i w) :: rest → step s = .next { s with i := w, actions := rest }) ∧
    (∀ w, s.actions = .initialise (.pc w) :: rest → step s = .next { s with pc := w, actions := rest }) ∧
    (∀ b, s.actions = .initialise (.dt b) :: rest → step s = .next { s with dt := b, actions := rest }) ∧
    (∀ b, s.actions = .initialise (.st b) :: rest → step s = .next { s with st := b, actions := rest }) ∧
    (∀ a b, s.memOk → s.actions = .initialise (.mem a b) :: rest →
      ∃ t, step s = .next t ∧ t = { s with mem := t.mem, actions := rest } ∧
        ∀ n, t.memRead n = if n % 4096 = a % 4096 then b else s.memRead n) ∧
    (∀ k w, k < s.cfg.stackDepth → s.actions = .initialise (.slot k w) :: rest →
      step s = .next { s with stack := s.stack.set k w, actions := rest }) ∧
    (∀ n, n ≤ s.cfg.stackDepth → s.actions = .initialise (.sp n) :: rest → step s = .next { s with sp := n, actions := rest }) ∧
    (∀ n, n ≤ periodI s.cfg → s.actions = .initialise (.accI n) :: rest → step s = .next { s with accI := n, actions := rest }) ∧
    (∀ n, n ≤ periodT s.cfg → s.actions = .initialise (.accT n) :: rest → step s = .next { s with accT := n, actions := rest }) ∧
    (∀ r c b, s.actions = .initialise (.disp r c b) :: rest →
      ∃ t, step s = .next t ∧ t = { s with disp := t.disp, actions := rest } ∧
        ∀ r' c', t.disp.cell r' c' = if r' = r ∧ c' = c then b else s.disp.cell r' c') ∧
    (∀ r c b, s.actions = .initialise (.prev r c b) :: rest →
      ∃ t, step s = .next t ∧ t = { s with prev := t.prev, actions := rest } ∧
        ∀ r' c', t.prev.cell r' c' = if r' = r ∧ c' = c then b else s.prev.cell r' c') ∧
    (∀ b, s.actions = .initialise (.dirty b) :: rest → step s = .next { s with dirty := b, actions := rest }) ∧
    (∀ x, s.actions = .initialise (.status x) :: rest → step s = .next { s with status := x, loadable := false, actions := rest }) ∧
    (∀ k w, s.cfg.stackDepth ≤ k → s.actions = .initialise (.slot k w) :: rest → step s = .refused .outOfRange) ∧
    (∀ n, s.cfg.stackDepth < n → s.actions = .initialise (.sp n) :: rest → step s = .refused .outOfRange) ∧
    (∀ n, periodI s.cfg < n → s.actions = .initialise (.accI n) :: rest → step s = .refused .outOfRange) ∧
    (∀ n, periodT s.cfg < n → s.actions = .initialise (.accT n) :: rest → step s = .refused .outOfRange)) ∧
  (∀ (s : State) (rest : List HostAction) (w : HostWrite), s.actions = .initialise w :: rest → s.report ≠ .idle →
    step s = .refused .afterFirstStep)

/-- `Redraw()` copies `DISP` to `PREV` and clears `DIRTY`; it is a no-op if not dirty (R186). -/
def Obligations.RedrawCopiesAndClearsDirty : Prop :=
  ∀ (s : State) (rest : List HostAction), s.actions = .redraw :: rest →
    (s.dirty = true → step s = .next { s with prev := s.disp, dirty := false, actions := rest }) ∧
    (s.dirty = false → step s = .next { s with actions := rest })

/-- A redraw never changes what a program computes: a scheduler step from the redrawn state ends as from the state itself, but for `PREV` and
`DIRTY` (R186). -/
def Obligations.RedrawNeverChangesComputation : Prop :=
  ∀ s t : State, s.schedStep = .next t →
    ∃ u, s.redraw.schedStep = .next u ∧ u = { t with prev := u.prev, dirty := u.dirty }

/-! ### Control flow (`40_control_flow.md`) -/

/-- `SYS nnn` only advances (R100). -/
def Obligations.SysOnlyAdvances : Prop :=
  ∀ (nnn : Addr) (s : State), (nnn ≠ 0x0E0 → nnn ≠ 0x0EE → decode (wordNNN 0x0 nnn) = .instr (.sys nnn)) ∧
    exec (.sys nnn) s = .next { s with pc := s.pc + 2 }

/-- `RET` pops into `pc` without advancing and does not clear the slot; on an empty stack it is fatal and changes nothing else (R101). -/
def Obligations.RetPopsIntoPc : Prop :=
  decode 0x00EE = .instr .ret ∧
  (∀ s : State, s.sp = 0 → exec .ret s = .next { s with status := .halted (.stackUnderflow 0x00EE s.pc 0) }) ∧
  (∀ (s : State) (k : Nat) (r : Word), s.sp = k + 1 → s.stack[k]? = some r → exec .ret s = .next { s with sp := k, pc := r })

/-- `JP nnn` writes `nnn` to `pc`; `JP V0, nnn` writes the exact sum of `V[0]` and `nnn`, not reduced modulo 4096 (R102, R108). -/
def Obligations.JumpsWritePc : Prop :=
  ∀ (nnn : Addr) (s : State),
    decode (wordNNN 0x1 nnn) = .instr (.jp nnn) ∧ decode (wordNNN 0xB nnn) = .instr (.jpV0 nnn) ∧
    (∃ t, exec (.jp nnn) s = .next t ∧ t = { s with pc := t.pc } ∧ t.pc.toNat = nnn.toNat) ∧
    (∃ t, exec (.jpV0 nnn) s = .next t ∧ t = { s with pc := t.pc } ∧ t.pc.toNat = (s.readV 0).toNat + nnn.toNat)

/-- `CALL nnn` pushes `pc + 2` into slot `SP`, the other slots unchanged, and jumps; on a full stack it is fatal and changes nothing else (R103). -/
def Obligations.CallPushesReturnAddress : Prop :=
  ∀ (nnn : Addr) (s : State), s.stackOk → decode (wordNNN 0x2 nnn) = .instr (.call nnn) ∧
    (s.sp = s.cfg.stackDepth →
      exec (.call nnn) s = .next { s with status := .halted (.stackOverflow (wordNNN 0x2 nnn) s.pc s.sp) }) ∧
    (s.sp < s.cfg.stackDepth →
      ∃ t, exec (.call nnn) s = .next t ∧ t = { s with stack := t.stack, sp := s.sp + 1, pc := t.pc } ∧ t.pc.toNat = nnn.toNat ∧
        t.stack[s.sp]? = some (s.pc + 2) ∧ t.stack.length = s.stack.length ∧ ∀ k, k ≠ s.sp → t.stack[k]? = s.stack[k]?)

/-- A call followed by a return comes back to the address after the call, with `SP` restored; the one slot written keeps the stale return address
(R26, R101, R103). -/
def Obligations.ReturnUndoesCall : Prop :=
  ∀ (nnn : Addr) (s : State), s.stackOk → s.sp < s.cfg.stackDepth →
    ∃ t u, exec (.call nnn) s = .next t ∧ exec .ret t = .next u ∧ u = { s with stack := s.stack.set s.sp (s.pc + 2), pc := s.pc + 2 }

/-- The register skips: `pc + 4` if the condition holds, else `pc + 2`; types 5 and 9 ignore `n` (R104–R107). -/
def Obligations.SkipsAddTwoExtra : Prop :=
  ∀ (x y : Reg) (kk : Byte) (n : Nibble) (s : State),
    decode (wordXKK 0x3 x kk) = .instr (.seImm x kk) ∧ decode (wordXKK 0x4 x kk) = .instr (.sneImm x kk) ∧
    decode (wordXYN 0x5 x y n) = .instr (.seReg x y) ∧ decode (wordXYN 0x9 x y n) = .instr (.sneReg x y) ∧
    exec (.seImm x kk) s = .next { s with pc := if s.readV x = kk then s.pc + 4 else s.pc + 2 } ∧
    exec (.sneImm x kk) s = .next { s with pc := if s.readV x ≠ kk then s.pc + 4 else s.pc + 2 } ∧
    exec (.seReg x y) s = .next { s with pc := if s.readV x = s.readV y then s.pc + 4 else s.pc + 2 } ∧
    exec (.sneReg x y) s = .next { s with pc := if s.readV x ≠ s.readV y then s.pc + 4 else s.pc + 2 }

/-! ### Register load and arithmetic (`41_register_alu.md`) -/

/-- The loads and the bitwise operations write `V[x]`, and no flag (R130, R132–R135; that the bitwise operations write none is the spec's own
inference, marked so in R133). -/
def Obligations.LoadsAndBitwiseWriteOnlyVx : Prop :=
  ∀ (x y : Reg) (kk : Byte) (s : State),
    decode (wordXKK 0x6 x kk) = .instr (.ldImm x kk) ∧ decode (wordXYN 0x8 x y 0x0) = .instr (.ldReg x y) ∧
    decode (wordXYN 0x8 x y 0x1) = .instr (.orReg x y) ∧ decode (wordXYN 0x8 x y 0x2) = .instr (.andReg x y) ∧
    decode (wordXYN 0x8 x y 0x3) = .instr (.xorReg x y) ∧
    exec (.ldImm x kk) s = .next { s with v := s.v.set x kk, pc := s.pc + 2 } ∧
    exec (.ldReg x y) s = .next { s with v := s.v.set x (s.readV y), pc := s.pc + 2 } ∧
    exec (.orReg x y) s = .next { s with v := s.v.set x (s.readV x ||| s.readV y), pc := s.pc + 2 } ∧
    exec (.andReg x y) s = .next { s with v := s.v.set x (s.readV x &&& s.readV y), pc := s.pc + 2 } ∧
    exec (.xorReg x y) s = .next { s with v := s.v.set x (s.readV x ^^^ s.readV y), pc := s.pc + 2 }

/-- `ADD Vx, kk` adds modulo 256 and touches no other register, the flag register among them unless it is `V[x]` (R131). -/
def Obligations.AddImmediateWrapsWithoutFlag : Prop :=
  ∀ (x : Reg) (kk : Byte) (s : State), decode (wordXKK 0x7 x kk) = .instr (.addImm x kk) ∧
    ∃ t, exec (.addImm x kk) s = .next t ∧ t = { s with v := t.v, pc := s.pc + 2 } ∧
      (t.readV x).toNat = ((s.readV x).toNat + kk.toNat) % 256 ∧ ∀ q, q ≠ x → t.readV q = s.readV q

/-- `ADD Vx, Vy`: the sum of the old values modulo 256 in `V[x]`, then the carry in `V[0xF]`, which with `x = 0xF` is what the register ends holding
(R136). -/
def Obligations.AddRegisterSetsCarry : Prop :=
  ∀ (x y : Reg) (s : State), decode (wordXYN 0x8 x y 0x4) = .instr (.addReg x y) ∧
    ∃ t, exec (.addReg x y) s = .next t ∧ t = { s with v := t.v, pc := s.pc + 2 } ∧
      (x ≠ flagReg → (t.readV x).toNat = ((s.readV x).toNat + (s.readV y).toNat) % 256) ∧
      (t.readV flagReg).toNat = bitOf (decide (255 < (s.readV x).toNat + (s.readV y).toNat)) ∧
      ∀ q, q ≠ x → q ≠ flagReg → t.readV q = s.readV q

/-- `SUB Vx, Vy`: `V[0xF]` is 1 when `V[x] >= V[y]`, written first; then the difference modulo 256 of the registers as they now stand, in each of the
four cases of `x` and `y` naming the flag register (R137). -/
def Obligations.SubSetsNotBorrowFirst : Prop :=
  ∀ (x y : Reg) (s : State) (f : Nat), f = bitOf (decide ((s.readV y).toNat ≤ (s.readV x).toNat)) →
    decode (wordXYN 0x8 x y 0x5) = .instr (.sub x y) ∧
    ∃ t, exec (.sub x y) s = .next t ∧ t = { s with v := t.v, pc := s.pc + 2 } ∧
      (x ≠ flagReg → (t.readV flagReg).toNat = f) ∧
      (x ≠ flagReg → y ≠ flagReg → (t.readV x).toNat = ((s.readV x).toNat + 256 - (s.readV y).toNat) % 256) ∧
      (x = flagReg → y ≠ flagReg → (t.readV x).toNat = (f + 256 - (s.readV y).toNat) % 256) ∧
      (x ≠ flagReg → y = flagReg → (t.readV x).toNat = ((s.readV x).toNat + 256 - f) % 256) ∧
      (x = flagReg → y = flagReg → t.readV x = 0) ∧
      ∀ q, q ≠ x → q ≠ flagReg → t.readV q = s.readV q

/-- `SUBN Vx, Vy`: as `SUB` with the operands exchanged (R139). -/
def Obligations.SubnSetsNotBorrowFirst : Prop :=
  ∀ (x y : Reg) (s : State) (f : Nat), f = bitOf (decide ((s.readV x).toNat ≤ (s.readV y).toNat)) →
    decode (wordXYN 0x8 x y 0x7) = .instr (.subn x y) ∧
    ∃ t, exec (.subn x y) s = .next t ∧ t = { s with v := t.v, pc := s.pc + 2 } ∧
      (x ≠ flagReg → (t.readV flagReg).toNat = f) ∧
      (x ≠ flagReg → y ≠ flagReg → (t.readV x).toNat = ((s.readV y).toNat + 256 - (s.readV x).toNat) % 256) ∧
      (x = flagReg → y ≠ flagReg → (t.readV x).toNat = ((s.readV y).toNat + 256 - f) % 256) ∧
      (x ≠ flagReg → y = flagReg → (t.readV x).toNat = (f + 256 - (s.readV x).toNat) % 256) ∧
      (x = flagReg → y = flagReg → t.readV x = 0) ∧
      ∀ q, q ≠ x → q ≠ flagReg → t.readV q = s.readV q

/-- The shifts move `V[x]` by one bit, `y` ignored: `V[0xF]` takes the bit shifted out, written first; with `x = 0xF` the flag itself is shifted
(R138, R140). -/
def Obligations.ShiftsSetShiftedOutBitFirst : Prop :=
  ∀ (x y : Reg) (s : State),
    decode (wordXYN 0x8 x y 0x6) = .instr (.shr x) ∧ decode (wordXYN 0x8 x y 0xE) = .instr (.shl x) ∧
    (∃ t, exec (.shr x) s = .next t ∧ t = { s with v := t.v, pc := s.pc + 2 } ∧
      (x ≠ flagReg → (t.readV x).toNat = (s.readV x).toNat / 2 ∧ (t.readV flagReg).toNat = (s.readV x).toNat % 2) ∧
      (x = flagReg → t.readV x = 0) ∧ ∀ q, q ≠ x → q ≠ flagReg → t.readV q = s.readV q) ∧
    (∃ t, exec (.shl x) s = .next t ∧ t = { s with v := t.v, pc := s.pc + 2 } ∧
      (x ≠ flagReg → (t.readV x).toNat = (s.readV x).toNat * 2 % 256 ∧ (t.readV flagReg).toNat = (s.readV x).toNat / 128) ∧
      (x = flagReg → (t.readV x).toNat = (s.readV x).toNat / 128 * 2) ∧ ∀ q, q ≠ x → q ≠ flagReg → t.readV q = s.readV q)

/-- `RND Vx, kk` writes the next answer of the random source under the mask and consumes it; with no answer listed it consumes one free draw, and
the result still has 0 wherever `kk` has (R141, R251). -/
def Obligations.RndMasksTheRandomByte : Prop :=
  ∀ (x : Reg) (kk : Byte) (s : State), decode (wordXKK 0xC x kk) = .instr (.rnd x kk) ∧
    (∀ (r : Byte) (rs : List Byte), s.randoms = r :: rs →
      exec (.rnd x kk) s = .next { s with v := s.v.set x (r &&& kk), randoms := rs, pc := s.pc + 2 }) ∧
    (s.randoms = [] → ∃ r : Byte,
      exec (.rnd x kk) s = .next { s with v := s.v.set x (r &&& kk), draws := s.draws + 1, pc := s.pc + 2 })

/-! ### Index register and memory (`42_index_memory.md`) -/

/-- `LD I, nnn` and `ADD I, Vx`, the latter modulo 65536 and with no flag (R160, R161; that `ADD I` writes none is the spec's own inference, marked so in R161). -/
def Obligations.IndexLoadsAndAdds : Prop :=
  ∀ (nnn : Addr) (x : Reg) (s : State),
    decode (wordNNN 0xA nnn) = .instr (.ldI nnn) ∧ decode (wordXKK 0xF x 0x1E) = .instr (.addI x) ∧
    (∃ t, exec (.ldI nnn) s = .next t ∧ t = { s with i := t.i, pc := s.pc + 2 } ∧ t.i.toNat = nnn.toNat) ∧
    (∃ t, exec (.addI x) s = .next t ∧ t = { s with i := t.i, pc := s.pc + 2 } ∧ t.i.toNat = (s.i.toNat + (s.readV x).toNat) % 65536)

/-- `LD F, Vx` sets `I` to five times `V[x]` for `V[x]` up to 15; above, it is fatal and changes nothing else (R162, R224). -/
def Obligations.GlyphAddressIsFiveTimesDigit : Prop :=
  ∀ (x : Reg) (s : State), decode (wordXKK 0xF x 0x29) = .instr (.ldF x) ∧
    ((s.readV x).toNat ≤ 15 →
      ∃ t, exec (.ldF x) s = .next t ∧ t = { s with i := t.i, pc := s.pc + 2 } ∧ t.i.toNat = (s.readV x).toNat * 5) ∧
    (15 < (s.readV x).toNat →
      exec (.ldF x) s = .next { s with status := .halted (.glyphOutOfRange (wordXKK 0xF x 0x29) s.pc (s.readV x)) })

/-- `LD B, Vx` stores the decimal digits of `V[x]` at `I`, `I + 1`, `I + 2`, each address reduced modulo 4096, and changes no other byte (R163). -/
def Obligations.DecimalDigitsAreStored : Prop :=
  ∀ (x : Reg) (s : State), s.memOk → decode (wordXKK 0xF x 0x33) = .instr (.ldB x) ∧
    ∃ t, exec (.ldB x) s = .next t ∧ t = { s with mem := t.mem, pc := s.pc + 2 } ∧
      (t.memRead ((s.i.toNat + 0) % 4096)).toNat = (s.readV x).toNat / 100 ∧
      (t.memRead ((s.i.toNat + 1) % 4096)).toNat = (s.readV x).toNat / 10 % 10 ∧
      (t.memRead ((s.i.toNat + 2) % 4096)).toNat = (s.readV x).toNat % 10 ∧
      ∀ a, a < 4096 → (∀ k, k < 3 → a ≠ (s.i.toNat + k) % 4096) → t.memRead a = s.memRead a

/-- `LD [I], Vx` stores `V[0]` to `V[x]` at `I` to `I + x`, each address reduced modulo 4096; `I` and every other byte are unchanged (R164). -/
def Obligations.RegisterDumpStoresUpToVx : Prop :=
  ∀ (x : Reg) (s : State), s.memOk → decode (wordXKK 0xF x 0x55) = .instr (.storeRegs x) ∧
    ∃ t, exec (.storeRegs x) s = .next t ∧ t = { s with mem := t.mem, pc := s.pc + 2 } ∧
      (∀ q : Reg, q ≤ x → t.memRead ((s.i.toNat + q.val) % 4096) = s.readV q) ∧
      ∀ a, a < 4096 → (∀ k, k ≤ x.val → a ≠ (s.i.toNat + k) % 4096) → t.memRead a = s.memRead a

/-- `LD Vx, [I]` loads `V[0]` to `V[x]` from `I` to `I + x`, each address reduced modulo 4096; the registers above `x`, `I` and memory are
unchanged (R165). -/
def Obligations.RegisterLoadReadsUpToVx : Prop :=
  ∀ (x : Reg) (s : State), decode (wordXKK 0xF x 0x65) = .instr (.loadRegs x) ∧
    ∃ t, exec (.loadRegs x) s = .next t ∧ t = { s with v := t.v, pc := s.pc + 2 } ∧
      (∀ q : Reg, q ≤ x → t.readV q = s.memRead ((s.i.toNat + q.val) % 4096)) ∧ (∀ q : Reg, x < q → t.readV q = s.readV q)

/-- A register dump, then anything done to the registers, then a register load through the same window restores `V[0]` to `V[x]` (R165, W5). -/
def Obligations.DumpThenLoadRestoresRegisters : Prop :=
  ∀ (x : Reg) (s t : State) (v' : Vector Byte 16), s.memOk → exec (.storeRegs x) s = .next t →
    ∃ u, exec (.loadRegs x) { t with v := v' } = .next u ∧ (∀ q : Reg, q ≤ x → u.readV q = s.readV q) ∧
      (∀ q : Reg, x < q → u.readV q = v'[q])

/-- A byte that a register dump stores is what a later fetch of its address reads, with nothing between: self-modifying code works at once
(R62, R271). -/
def Obligations.StoredByteIsFetched : Prop :=
  ∀ (x q : Reg) (s t u : State), s.memOk → q ≤ x → exec (.storeRegs x) s = .next t → u.mem = t.mem → u.cfg = t.cfg →
    u.pc.toNat % 4096 = (s.i.toNat + q.val) % 4096 →
    ∃ lo : Byte, u.fetch = (s.readV q ++ lo : BitVec 16)

/-! ### Display (`43_display.md`) -/

/-- `CLS` clears every cell and sets `DIRTY`; `PREV` and the flag register are untouched (R180). -/
def Obligations.ClsClearsEveryCell : Prop :=
  ∀ s : State, decode 0x00E0 = .instr .cls ∧
    ∃ t, exec .cls s = .next t ∧ t = { s with disp := t.disp, dirty := true, pc := s.pc + 2 } ∧ ∀ r c, t.disp.cell r c = false

/-- `DRW Vx, Vy, n` inverts exactly the cells that a 1-bit of the sprite lands on, sets `DIRTY`, and writes `V[0xF]`: 1 if a cell went from 1 to 0,
else 0 (R181–R185). -/
def Obligations.DrawInvertsCoveredCells : Prop :=
  ∀ (x y : Reg) (n : Nibble) (s : State), decode (wordXYN 0xD x y n) = .instr (.drw x y n) ∧
    ∃ t, exec (.drw x y n) s = .next t ∧ t = { s with v := t.v, disp := t.disp, dirty := true, pc := s.pc + 2 } ∧
      (∀ r c, (spriteCovers s x y n r c → t.disp.cell r c = !s.disp.cell r c) ∧
        (¬ spriteCovers s x y n r c → t.disp.cell r c = s.disp.cell r c)) ∧
      (t.readV flagReg = 0 ∨ t.readV flagReg = 1) ∧
      (t.readV flagReg = 1 ↔ ∃ r c, s.disp.cell r c = true ∧ t.disp.cell r c = false) ∧
      ∀ q, q ≠ flagReg → t.readV q = s.readV q

/-- Drawing the same sprite at the same origin twice restores the grid; the second draw reports a collision exactly when the first turned some cell
on (R187). The registers that name the origin are not the flag register, which the first draw overwrites. -/
def Obligations.DrawingTwiceRestoresGrid : Prop :=
  ∀ (x y : Reg) (n : Nibble) (s t u : State), x ≠ flagReg → y ≠ flagReg → exec (.drw x y n) s = .next t → exec (.drw x y n) t = .next u →
    u.disp = s.disp ∧ (u.readV flagReg = 1 ↔ ∃ r c, s.disp.cell r c = false ∧ t.disp.cell r c = true)

/-! ### Timers and input (`44_timers_input.md`) -/

/-- The key skips: an id above 15 is fatal, the host not being asked; else one snapshot is consumed, the listed one or, with none listed, a free one, and
the skip follows it; a failed sample has no other effect (R200, R201, R225, R226). -/
def Obligations.KeySkipsFollowTheSnapshot : Prop :=
  ∀ (x : Reg) (s : State),
    decode (wordXKK 0xE x 0x9E) = .instr (.skp x) ∧ decode (wordXKK 0xE x 0xA1) = .instr (.sknp x) ∧
    (15 < (s.readV x).toNat →
      exec (.skp x) s = .next { s with status := .halted (.keyOutOfRange (wordXKK 0xE x 0x9E) s.pc (s.readV x)) } ∧
      exec (.sknp x) s = .next { s with status := .halted (.keyOutOfRange (wordXKK 0xE x 0xA1) s.pc (s.readV x)) }) ∧
    (∀ (k : Key) (keys : List Key) (ks : List KeySample), (s.readV x).toNat = k.val → s.samples = .held keys :: ks →
      exec (.skp x) s = .next { s with samples := ks, pc := if k ∈ keys then s.pc + 4 else s.pc + 2 } ∧
      exec (.sknp x) s = .next { s with samples := ks, pc := if k ∈ keys then s.pc + 2 else s.pc + 4 }) ∧
    (∀ ks : List KeySample, (s.readV x).toNat ≤ 15 → s.samples = .failure :: ks →
      exec (.skp x) s = .next { s with samples := ks, report := .inputFailure (wordXKK 0xE x 0x9E) s.pc } ∧
      exec (.sknp x) s = .next { s with samples := ks, report := .inputFailure (wordXKK 0xE x 0xA1) s.pc }) ∧
    (∀ k : Key, (s.readV x).toNat = k.val → s.samples = [] →
      (∃ keys : List Key,
        exec (.skp x) s = .next { s with draws := s.draws + 1, pc := if k ∈ keys then s.pc + 4 else s.pc + 2 } ∧
        exec (.sknp x) s = .next { s with draws := s.draws + 1, pc := if k ∈ keys then s.pc + 2 else s.pc + 4 }) ∨
      (exec (.skp x) s = .next { s with draws := s.draws + 1, report := .inputFailure (wordXKK 0xE x 0x9E) s.pc } ∧
        exec (.sknp x) s = .next { s with draws := s.draws + 1, report := .inputFailure (wordXKK 0xE x 0xA1) s.pc }))

/-- `LD Vx, DT`, `LD DT, Vx` and `LD ST, Vx` copy, and change nothing else (R202, R204, R205). -/
def Obligations.TimerTransfersCopy : Prop :=
  ∀ (x : Reg) (s : State),
    decode (wordXKK 0xF x 0x07) = .instr (.ldVxDt x) ∧ decode (wordXKK 0xF x 0x15) = .instr (.ldDtVx x) ∧
    decode (wordXKK 0xF x 0x18) = .instr (.ldStVx x) ∧
    exec (.ldVxDt x) s = .next { s with v := s.v.set x s.dt, pc := s.pc + 2 } ∧
    exec (.ldDtVx x) s = .next { s with dt := s.readV x, pc := s.pc + 2 } ∧
    exec (.ldStVx x) s = .next { s with st := s.readV x, pc := s.pc + 2 }

/-- `LD Vx, K` at its instruction event: `STATUS <- Waiting(x)`, `pc` still at the instruction, and the scheduler step is suspended with its
accumulators as they were (R203, R246). -/
def Obligations.KeyWaitSuspendsStep : Prop :=
  ∀ (x : Reg) (s : State), decode (wordXKK 0xF x 0x0A) = .instr (.ldVxK x) ∧
    exec (.ldVxK x) s = .next { s with status := .waiting x } ∧
    (s.actions = [] → s.status = .running → s.accI = 0 → decode s.fetch = .instr (.ldVxK x) →
      step s = .next { s with status := .waiting x, report := .suspended, loadable := false })

/-! ### What instructions leave unchanged -/

/-- No instruction changes a register that is neither its destination nor its implicit flag; `V[0xF]` is written implicitly by `ADD Vx, Vy`, `SUB`,
`SHR`, `SUBN`, `SHL` and `DRW` only (R20, R21). -/
def Obligations.OnlyDestinationsAndFlagChange : Prop :=
  ∀ (i : Instr) (s t : State) (q : Reg), exec i s = .next t → writesReg i q = false → t.readV q = s.readV q

/-- No instruction changes a byte of memory but the bytes it stores at `I`, `I + 1`, …: three for `LD B, Vx`, `x + 1` for `LD [I], Vx`, none for any
other (R51). -/
def Obligations.OnlyStoredBytesChange : Prop :=
  ∀ (i : Instr) (s t : State) (a : Nat), s.memOk → exec i s = .next t →
    (∀ k, k < storeCount i → physAddr a ≠ physAddr (s.indexAddr k)) → t.memRead a = s.memRead a

/-- The special registers change only where the spec names their writers: `I` by `LD I`, `ADD I` and `LD F`; the stack by `CALL` and `SP` by `CALL` and
`RET`; `DT` by `LD DT` and `ST` by `LD ST`; `DISP` and `DIRTY` by `CLS` and `DRW`; the tick accumulators, `PREV` and the parameters by none (R22, R26,
R27, R29, R30, R31, R35; the last two fields are the model's own). -/
def Obligations.OnlyNamedWritersChangeSpecialState : Prop :=
  ∀ (i : Instr) (s t : State), exec i s = .next t →
    ((∀ nnn, i ≠ .ldI nnn) → (∀ x, i ≠ .addI x) → (∀ x, i ≠ .ldF x) → t.i = s.i) ∧
    ((∀ nnn, i ≠ .call nnn) → t.stack = s.stack ∧ (i ≠ .ret → t.sp = s.sp)) ∧
    ((∀ x, i ≠ .ldDtVx x) → t.dt = s.dt) ∧ ((∀ x, i ≠ .ldStVx x) → t.st = s.st) ∧
    (i ≠ .cls → (∀ x y n, i ≠ .drw x y n) → t.disp = s.disp ∧ t.dirty = s.dirty) ∧
    t.accI = s.accI ∧ t.accT = s.accT ∧ t.prev = s.prev ∧ t.cfg = s.cfg ∧ t.actions = s.actions ∧ t.loadable = s.loadable

/-- An instruction that neither errs, waits nor fails its sample, and is no control transfer, advances `pc` by 2, or, if it is a skip, by 2 or 4 (R86). -/
def Obligations.ProgramCounterAdvances : Prop :=
  ∀ (i : Instr) (s t : State), exec i s = .next t → s.status = .running → t.status = .running → t.report = s.report →
    isTransfer i = false → (∀ w p, s.report ≠ .inputFailure w p) →
    t.pc = s.pc + 2 ∨ (isSkip i = true ∧ t.pc = s.pc + 4)

/-- `ST` is an output that no instruction reads: with another value of it, every instruction does the same to everything else, and leaves that value
or writes its own (R29). -/
def Obligations.NoInstructionReadsSoundTimer : Prop :=
  ∀ (i : Instr) (s t : State) (b : Byte), exec i s = .next t →
    ∃ u, exec i { s with st := b } = .next u ∧ u = { t with st := u.st } ∧ (u.st = b ∨ u.st = t.st)
end

