-- ==== Sys2Proof/Laws/Decode.lean ====
section
/-! SUPPORT. The fields of the words the encoder builds, and of the words fetch composes. -/

namespace Sys2Proof

@[simp] theorem regOfBits_bitsOfReg (r : Reg) : regOfBits (bitsOfReg r) = r := by
  apply Fin.ext; simp [regOfBits, bitsOfReg]

@[simp] theorem bitsOfReg_regOfBits (b : Nibble) : bitsOfReg (regOfBits b) = b := by
  apply BitVec.eq_of_toNat_eq; simp [regOfBits, bitsOfReg]

theorem extract_high {m n : Nat} (a : BitVec m) (b : BitVec n) : (a ++ b).extractLsb' n m = a :=
  BitVec.extractLsb'_append_eq_left

theorem extract_low {m n : Nat} (a : BitVec m) (b : BitVec n) (start len : Nat) (h : start + len ≤ n) :
    (a ++ b).extractLsb' start len = b.extractLsb' start len :=
  BitVec.extractLsb'_append_eq_of_add_le h

theorem extract_all {n : Nat} (b : BitVec n) : b.extractLsb' 0 n = b := by
  apply BitVec.eq_of_toNat_eq; simp

variable (t n : Nibble) (x y : Reg) (nnn : Addr) (kk : Byte)

@[simp] theorem typeField_wordNNN : typeField (wordNNN t nnn) = t := extract_high t nnn
@[simp] theorem typeField_wordXKK : typeField (wordXKK t x kk) = t := extract_high t _
@[simp] theorem typeField_wordXYN : typeField (wordXYN t x y n) = t := extract_high t _

@[simp] theorem nnnField_wordNNN : nnnField (wordNNN t nnn) = nnn :=
  (extract_low t nnn 0 12 (by decide)).trans (extract_all nnn)

@[simp] theorem xReg_wordXKK : xReg (wordXKK t x kk) = x := by
  have : xField (wordXKK t x kk) = bitsOfReg x := (extract_low t _ 8 4 (by decide)).trans (extract_high _ _)
  simp [xReg, this]

@[simp] theorem kkField_wordXKK : kkField (wordXKK t x kk) = kk :=
  (extract_low t _ 0 8 (by decide)).trans ((extract_low _ _ 0 8 (by decide)).trans (extract_all kk))

@[simp] theorem xReg_wordXYN : xReg (wordXYN t x y n) = x := by
  have : xField (wordXYN t x y n) = bitsOfReg x := (extract_low t _ 8 4 (by decide)).trans (extract_high _ _)
  simp [xReg, this]

@[simp] theorem yReg_wordXYN : yReg (wordXYN t x y n) = y := by
  have : yField (wordXYN t x y n) = bitsOfReg y :=
    (extract_low t _ 4 4 (by decide)).trans ((extract_low _ _ 4 4 (by decide)).trans (extract_high _ _))
  simp [yReg, this]

@[simp] theorem nField_wordXYN : nField (wordXYN t x y n) = n :=
  (extract_low t _ 0 4 (by decide)).trans
    ((extract_low _ _ 0 4 (by decide)).trans ((extract_low _ _ 0 4 (by decide)).trans (extract_all n)))

/-- Fetch composes what memory holds of a word (R54, R71). -/
theorem wordOfBytes_bytesOfWord (w : Word) : wordOfBytes (bytesOfWord w).1 (bytesOfWord w).2 = w := by
  apply BitVec.eq_of_getLsbD_eq
  intro i hi
  simp only [wordOfBytes, bytesOfWord, BitVec.getLsbD_append, BitVec.getLsbD_extractLsb']
  split
  · simp [*]
  · rw [show 8 + (i - 8) = i by omega]; simp [show i - 8 < 8 by omega]

/-- A word is put together from its type and `nnn`. -/
theorem wordNNN_fields (w : Word) : wordNNN (typeField w) (nnnField w) = w := by
  apply BitVec.eq_of_getLsbD_eq
  intro i hi
  simp only [wordNNN, typeField, nnnField, BitVec.getLsbD_append, BitVec.getLsbD_extractLsb']
  split
  · simp [*]
  · rw [show 12 + (i - 12) = i by omega]; simp [show i - 12 < 4 by omega]

/-- A word is put together from its type, `x` and `kk`. -/
theorem wordXKK_fields (w : Word) : wordXKK (typeField w) (xReg w) (kkField w) = w := by
  apply BitVec.eq_of_getLsbD_eq
  intro i hi
  simp only [wordXKK, typeField, xReg, xField, kkField, bitsOfReg_regOfBits, BitVec.getLsbD_append, BitVec.getLsbD_extractLsb']
  split
  · split
    · simp [*]
    · rw [show 8 + (i - 8) = i by omega]; simp [show i - 8 < 4 by omega]
  · rw [show 12 + (i - 12) = i by omega]; simp [show i - 12 < 4 by omega]

/-- A word is put together from its type, `x`, `y` and `n`. -/
theorem wordXYN_fields (w : Word) : wordXYN (typeField w) (xReg w) (yReg w) (nField w) = w := by
  apply BitVec.eq_of_getLsbD_eq
  intro i hi
  simp only [wordXYN, typeField, xReg, xField, yReg, yField, nField, bitsOfReg_regOfBits, BitVec.getLsbD_append,
    BitVec.getLsbD_extractLsb']
  split
  · split
    · split
      · simp [*]
      · rw [show 4 + (i - 4) = i by omega]; simp [show i - 4 < 4 by omega]
    · rw [show 8 + (i - 8) = i by omega]; simp [show i - 8 < 4 by omega]
  · rw [show 12 + (i - 12) = i by omega]; simp [show i - 12 < 4 by omega]

end Sys2Proof
end

