-- ==== Sys2Proof/Laws/State.lean ====
section
/-! SUPPORT. For each update of the state, what every field holds after it. -/

namespace Sys2Proof.Machine

variable (s : State)

/-! ### `writeV` -/

@[simp] theorem writeV_v (r : Reg) (b : Byte) : (s.writeV r b).v = s.v.set r b := rfl
@[simp] theorem writeV_i (r : Reg) (b : Byte) : (s.writeV r b).i = s.i := rfl
@[simp] theorem writeV_pc (r : Reg) (b : Byte) : (s.writeV r b).pc = s.pc := rfl
@[simp] theorem writeV_stack (r : Reg) (b : Byte) : (s.writeV r b).stack = s.stack := rfl
@[simp] theorem writeV_sp (r : Reg) (b : Byte) : (s.writeV r b).sp = s.sp := rfl
@[simp] theorem writeV_dt (r : Reg) (b : Byte) : (s.writeV r b).dt = s.dt := rfl
@[simp] theorem writeV_st (r : Reg) (b : Byte) : (s.writeV r b).st = s.st := rfl
@[simp] theorem writeV_accI (r : Reg) (b : Byte) : (s.writeV r b).accI = s.accI := rfl
@[simp] theorem writeV_accT (r : Reg) (b : Byte) : (s.writeV r b).accT = s.accT := rfl
@[simp] theorem writeV_disp (r : Reg) (b : Byte) : (s.writeV r b).disp = s.disp := rfl
@[simp] theorem writeV_prev (r : Reg) (b : Byte) : (s.writeV r b).prev = s.prev := rfl
@[simp] theorem writeV_dirty (r : Reg) (b : Byte) : (s.writeV r b).dirty = s.dirty := rfl
@[simp] theorem writeV_status (r : Reg) (b : Byte) : (s.writeV r b).status = s.status := rfl
@[simp] theorem writeV_mem (r : Reg) (b : Byte) : (s.writeV r b).mem = s.mem := rfl
@[simp] theorem writeV_cfg (r : Reg) (b : Byte) : (s.writeV r b).cfg = s.cfg := rfl
@[simp] theorem writeV_report (r : Reg) (b : Byte) : (s.writeV r b).report = s.report := rfl
@[simp] theorem writeV_loadable (r : Reg) (b : Byte) : (s.writeV r b).loadable = s.loadable := rfl
@[simp] theorem writeV_actions (r : Reg) (b : Byte) : (s.writeV r b).actions = s.actions := rfl
@[simp] theorem writeV_randoms (r : Reg) (b : Byte) : (s.writeV r b).randoms = s.randoms := rfl
@[simp] theorem writeV_samples (r : Reg) (b : Byte) : (s.writeV r b).samples = s.samples := rfl
@[simp] theorem writeV_draws (r : Reg) (b : Byte) : (s.writeV r b).draws = s.draws := rfl
@[simp] theorem writeV_memRead (r : Reg) (b : Byte) (n : Nat) : (s.writeV r b).memRead n = s.memRead n := rfl

/-! ### `writeFlag` -/

@[simp] theorem writeFlag_v (f : Bool) : (s.writeFlag f).v = s.v.set flagReg (flagByte f) := rfl
@[simp] theorem writeFlag_i (f : Bool) : (s.writeFlag f).i = s.i := rfl
@[simp] theorem writeFlag_pc (f : Bool) : (s.writeFlag f).pc = s.pc := rfl
@[simp] theorem writeFlag_stack (f : Bool) : (s.writeFlag f).stack = s.stack := rfl
@[simp] theorem writeFlag_sp (f : Bool) : (s.writeFlag f).sp = s.sp := rfl
@[simp] theorem writeFlag_dt (f : Bool) : (s.writeFlag f).dt = s.dt := rfl
@[simp] theorem writeFlag_st (f : Bool) : (s.writeFlag f).st = s.st := rfl
@[simp] theorem writeFlag_accI (f : Bool) : (s.writeFlag f).accI = s.accI := rfl
@[simp] theorem writeFlag_accT (f : Bool) : (s.writeFlag f).accT = s.accT := rfl
@[simp] theorem writeFlag_disp (f : Bool) : (s.writeFlag f).disp = s.disp := rfl
@[simp] theorem writeFlag_prev (f : Bool) : (s.writeFlag f).prev = s.prev := rfl
@[simp] theorem writeFlag_dirty (f : Bool) : (s.writeFlag f).dirty = s.dirty := rfl
@[simp] theorem writeFlag_status (f : Bool) : (s.writeFlag f).status = s.status := rfl
@[simp] theorem writeFlag_mem (f : Bool) : (s.writeFlag f).mem = s.mem := rfl
@[simp] theorem writeFlag_cfg (f : Bool) : (s.writeFlag f).cfg = s.cfg := rfl
@[simp] theorem writeFlag_report (f : Bool) : (s.writeFlag f).report = s.report := rfl
@[simp] theorem writeFlag_loadable (f : Bool) : (s.writeFlag f).loadable = s.loadable := rfl
@[simp] theorem writeFlag_actions (f : Bool) : (s.writeFlag f).actions = s.actions := rfl
@[simp] theorem writeFlag_randoms (f : Bool) : (s.writeFlag f).randoms = s.randoms := rfl
@[simp] theorem writeFlag_samples (f : Bool) : (s.writeFlag f).samples = s.samples := rfl
@[simp] theorem writeFlag_draws (f : Bool) : (s.writeFlag f).draws = s.draws := rfl
@[simp] theorem writeFlag_memRead (f : Bool) (n : Nat) : (s.writeFlag f).memRead n = s.memRead n := rfl

/-! ### `writeI` -/

@[simp] theorem writeI_v (a : Word) : (s.writeI a).v = s.v := rfl
@[simp] theorem writeI_i (a : Word) : (s.writeI a).i = a := rfl
@[simp] theorem writeI_pc (a : Word) : (s.writeI a).pc = s.pc := rfl
@[simp] theorem writeI_stack (a : Word) : (s.writeI a).stack = s.stack := rfl
@[simp] theorem writeI_sp (a : Word) : (s.writeI a).sp = s.sp := rfl
@[simp] theorem writeI_dt (a : Word) : (s.writeI a).dt = s.dt := rfl
@[simp] theorem writeI_st (a : Word) : (s.writeI a).st = s.st := rfl
@[simp] theorem writeI_accI (a : Word) : (s.writeI a).accI = s.accI := rfl
@[simp] theorem writeI_accT (a : Word) : (s.writeI a).accT = s.accT := rfl
@[simp] theorem writeI_disp (a : Word) : (s.writeI a).disp = s.disp := rfl
@[simp] theorem writeI_prev (a : Word) : (s.writeI a).prev = s.prev := rfl
@[simp] theorem writeI_dirty (a : Word) : (s.writeI a).dirty = s.dirty := rfl
@[simp] theorem writeI_status (a : Word) : (s.writeI a).status = s.status := rfl
@[simp] theorem writeI_mem (a : Word) : (s.writeI a).mem = s.mem := rfl
@[simp] theorem writeI_cfg (a : Word) : (s.writeI a).cfg = s.cfg := rfl
@[simp] theorem writeI_report (a : Word) : (s.writeI a).report = s.report := rfl
@[simp] theorem writeI_loadable (a : Word) : (s.writeI a).loadable = s.loadable := rfl
@[simp] theorem writeI_actions (a : Word) : (s.writeI a).actions = s.actions := rfl
@[simp] theorem writeI_randoms (a : Word) : (s.writeI a).randoms = s.randoms := rfl
@[simp] theorem writeI_samples (a : Word) : (s.writeI a).samples = s.samples := rfl
@[simp] theorem writeI_draws (a : Word) : (s.writeI a).draws = s.draws := rfl
@[simp] theorem writeI_readV (a : Word) (q : Reg) : (s.writeI a).readV q = s.readV q := rfl
@[simp] theorem writeI_memRead (a : Word) (n : Nat) : (s.writeI a).memRead n = s.memRead n := rfl

/-! ### `jump` -/

@[simp] theorem jump_v (t : Word) : (s.jump t).v = s.v := rfl
@[simp] theorem jump_i (t : Word) : (s.jump t).i = s.i := rfl
@[simp] theorem jump_pc (t : Word) : (s.jump t).pc = t := rfl
@[simp] theorem jump_stack (t : Word) : (s.jump t).stack = s.stack := rfl
@[simp] theorem jump_sp (t : Word) : (s.jump t).sp = s.sp := rfl
@[simp] theorem jump_dt (t : Word) : (s.jump t).dt = s.dt := rfl
@[simp] theorem jump_st (t : Word) : (s.jump t).st = s.st := rfl
@[simp] theorem jump_accI (t : Word) : (s.jump t).accI = s.accI := rfl
@[simp] theorem jump_accT (t : Word) : (s.jump t).accT = s.accT := rfl
@[simp] theorem jump_disp (t : Word) : (s.jump t).disp = s.disp := rfl
@[simp] theorem jump_prev (t : Word) : (s.jump t).prev = s.prev := rfl
@[simp] theorem jump_dirty (t : Word) : (s.jump t).dirty = s.dirty := rfl
@[simp] theorem jump_status (t : Word) : (s.jump t).status = s.status := rfl
@[simp] theorem jump_mem (t : Word) : (s.jump t).mem = s.mem := rfl
@[simp] theorem jump_cfg (t : Word) : (s.jump t).cfg = s.cfg := rfl
@[simp] theorem jump_report (t : Word) : (s.jump t).report = s.report := rfl
@[simp] theorem jump_loadable (t : Word) : (s.jump t).loadable = s.loadable := rfl
@[simp] theorem jump_actions (t : Word) : (s.jump t).actions = s.actions := rfl
@[simp] theorem jump_randoms (t : Word) : (s.jump t).randoms = s.randoms := rfl
@[simp] theorem jump_samples (t : Word) : (s.jump t).samples = s.samples := rfl
@[simp] theorem jump_draws (t : Word) : (s.jump t).draws = s.draws := rfl
@[simp] theorem jump_readV (t : Word) (q : Reg) : (s.jump t).readV q = s.readV q := rfl
@[simp] theorem jump_memRead (t : Word) (n : Nat) : (s.jump t).memRead n = s.memRead n := rfl

/-! ### `advance` -/

@[simp] theorem advance_v : (s.advance).v = s.v := rfl
@[simp] theorem advance_i : (s.advance).i = s.i := rfl
@[simp] theorem advance_pc : (s.advance).pc = s.pc + 2 := rfl
@[simp] theorem advance_stack : (s.advance).stack = s.stack := rfl
@[simp] theorem advance_sp : (s.advance).sp = s.sp := rfl
@[simp] theorem advance_dt : (s.advance).dt = s.dt := rfl
@[simp] theorem advance_st : (s.advance).st = s.st := rfl
@[simp] theorem advance_accI : (s.advance).accI = s.accI := rfl
@[simp] theorem advance_accT : (s.advance).accT = s.accT := rfl
@[simp] theorem advance_disp : (s.advance).disp = s.disp := rfl
@[simp] theorem advance_prev : (s.advance).prev = s.prev := rfl
@[simp] theorem advance_dirty : (s.advance).dirty = s.dirty := rfl
@[simp] theorem advance_status : (s.advance).status = s.status := rfl
@[simp] theorem advance_mem : (s.advance).mem = s.mem := rfl
@[simp] theorem advance_cfg : (s.advance).cfg = s.cfg := rfl
@[simp] theorem advance_report : (s.advance).report = s.report := rfl
@[simp] theorem advance_loadable : (s.advance).loadable = s.loadable := rfl
@[simp] theorem advance_actions : (s.advance).actions = s.actions := rfl
@[simp] theorem advance_randoms : (s.advance).randoms = s.randoms := rfl
@[simp] theorem advance_samples : (s.advance).samples = s.samples := rfl
@[simp] theorem advance_draws : (s.advance).draws = s.draws := rfl
@[simp] theorem advance_readV (q : Reg) : (s.advance).readV q = s.readV q := rfl
@[simp] theorem advance_memRead (n : Nat) : (s.advance).memRead n = s.memRead n := rfl

/-! ### `skip` -/

@[simp] theorem skip_v : (s.skip).v = s.v := rfl
@[simp] theorem skip_i : (s.skip).i = s.i := rfl
@[simp] theorem skip_pc : (s.skip).pc = s.pc + 4 := rfl
@[simp] theorem skip_stack : (s.skip).stack = s.stack := rfl
@[simp] theorem skip_sp : (s.skip).sp = s.sp := rfl
@[simp] theorem skip_dt : (s.skip).dt = s.dt := rfl
@[simp] theorem skip_st : (s.skip).st = s.st := rfl
@[simp] theorem skip_accI : (s.skip).accI = s.accI := rfl
@[simp] theorem skip_accT : (s.skip).accT = s.accT := rfl
@[simp] theorem skip_disp : (s.skip).disp = s.disp := rfl
@[simp] theorem skip_prev : (s.skip).prev = s.prev := rfl
@[simp] theorem skip_dirty : (s.skip).dirty = s.dirty := rfl
@[simp] theorem skip_status : (s.skip).status = s.status := rfl
@[simp] theorem skip_mem : (s.skip).mem = s.mem := rfl
@[simp] theorem skip_cfg : (s.skip).cfg = s.cfg := rfl
@[simp] theorem skip_report : (s.skip).report = s.report := rfl
@[simp] theorem skip_loadable : (s.skip).loadable = s.loadable := rfl
@[simp] theorem skip_actions : (s.skip).actions = s.actions := rfl
@[simp] theorem skip_randoms : (s.skip).randoms = s.randoms := rfl
@[simp] theorem skip_samples : (s.skip).samples = s.samples := rfl
@[simp] theorem skip_draws : (s.skip).draws = s.draws := rfl
@[simp] theorem skip_readV (q : Reg) : (s.skip).readV q = s.readV q := rfl
@[simp] theorem skip_memRead (n : Nat) : (s.skip).memRead n = s.memRead n := rfl

/-! ### `skipIf` -/

@[simp] theorem skipIf_v (c : Bool) : (s.skipIf c).v = s.v := by cases c <;> rfl
@[simp] theorem skipIf_i (c : Bool) : (s.skipIf c).i = s.i := by cases c <;> rfl
@[simp] theorem skipIf_pc (c : Bool) : (s.skipIf c).pc = if c then s.pc + 4 else s.pc + 2 := by cases c <;> rfl
@[simp] theorem skipIf_stack (c : Bool) : (s.skipIf c).stack = s.stack := by cases c <;> rfl
@[simp] theorem skipIf_sp (c : Bool) : (s.skipIf c).sp = s.sp := by cases c <;> rfl
@[simp] theorem skipIf_dt (c : Bool) : (s.skipIf c).dt = s.dt := by cases c <;> rfl
@[simp] theorem skipIf_st (c : Bool) : (s.skipIf c).st = s.st := by cases c <;> rfl
@[simp] theorem skipIf_accI (c : Bool) : (s.skipIf c).accI = s.accI := by cases c <;> rfl
@[simp] theorem skipIf_accT (c : Bool) : (s.skipIf c).accT = s.accT := by cases c <;> rfl
@[simp] theorem skipIf_disp (c : Bool) : (s.skipIf c).disp = s.disp := by cases c <;> rfl
@[simp] theorem skipIf_prev (c : Bool) : (s.skipIf c).prev = s.prev := by cases c <;> rfl
@[simp] theorem skipIf_dirty (c : Bool) : (s.skipIf c).dirty = s.dirty := by cases c <;> rfl
@[simp] theorem skipIf_status (c : Bool) : (s.skipIf c).status = s.status := by cases c <;> rfl
@[simp] theorem skipIf_mem (c : Bool) : (s.skipIf c).mem = s.mem := by cases c <;> rfl
@[simp] theorem skipIf_cfg (c : Bool) : (s.skipIf c).cfg = s.cfg := by cases c <;> rfl
@[simp] theorem skipIf_report (c : Bool) : (s.skipIf c).report = s.report := by cases c <;> rfl
@[simp] theorem skipIf_loadable (c : Bool) : (s.skipIf c).loadable = s.loadable := by cases c <;> rfl
@[simp] theorem skipIf_actions (c : Bool) : (s.skipIf c).actions = s.actions := by cases c <;> rfl
@[simp] theorem skipIf_randoms (c : Bool) : (s.skipIf c).randoms = s.randoms := by cases c <;> rfl
@[simp] theorem skipIf_samples (c : Bool) : (s.skipIf c).samples = s.samples := by cases c <;> rfl
@[simp] theorem skipIf_draws (c : Bool) : (s.skipIf c).draws = s.draws := by cases c <;> rfl
@[simp] theorem skipIf_readV (c : Bool) (q : Reg) : (s.skipIf c).readV q = s.readV q := by simp [State.readV]
@[simp] theorem skipIf_memRead (c : Bool) (n : Nat) : (s.skipIf c).memRead n = s.memRead n := by simp [State.memRead]

/-! ### `memWrite` -/

@[simp] theorem memWrite_v (a : Nat) (b : Byte) : (s.memWrite a b).v = s.v := rfl
@[simp] theorem memWrite_i (a : Nat) (b : Byte) : (s.memWrite a b).i = s.i := rfl
@[simp] theorem memWrite_pc (a : Nat) (b : Byte) : (s.memWrite a b).pc = s.pc := rfl
@[simp] theorem memWrite_stack (a : Nat) (b : Byte) : (s.memWrite a b).stack = s.stack := rfl
@[simp] theorem memWrite_sp (a : Nat) (b : Byte) : (s.memWrite a b).sp = s.sp := rfl
@[simp] theorem memWrite_dt (a : Nat) (b : Byte) : (s.memWrite a b).dt = s.dt := rfl
@[simp] theorem memWrite_st (a : Nat) (b : Byte) : (s.memWrite a b).st = s.st := rfl
@[simp] theorem memWrite_accI (a : Nat) (b : Byte) : (s.memWrite a b).accI = s.accI := rfl
@[simp] theorem memWrite_accT (a : Nat) (b : Byte) : (s.memWrite a b).accT = s.accT := rfl
@[simp] theorem memWrite_disp (a : Nat) (b : Byte) : (s.memWrite a b).disp = s.disp := rfl
@[simp] theorem memWrite_prev (a : Nat) (b : Byte) : (s.memWrite a b).prev = s.prev := rfl
@[simp] theorem memWrite_dirty (a : Nat) (b : Byte) : (s.memWrite a b).dirty = s.dirty := rfl
@[simp] theorem memWrite_status (a : Nat) (b : Byte) : (s.memWrite a b).status = s.status := rfl
@[simp] theorem memWrite_mem (a : Nat) (b : Byte) : (s.memWrite a b).mem = Memory.write s.cfg.glyphs s.mem (physAddr a) b := rfl
@[simp] theorem memWrite_cfg (a : Nat) (b : Byte) : (s.memWrite a b).cfg = s.cfg := rfl
@[simp] theorem memWrite_report (a : Nat) (b : Byte) : (s.memWrite a b).report = s.report := rfl
@[simp] theorem memWrite_loadable (a : Nat) (b : Byte) : (s.memWrite a b).loadable = s.loadable := rfl
@[simp] theorem memWrite_actions (a : Nat) (b : Byte) : (s.memWrite a b).actions = s.actions := rfl
@[simp] theorem memWrite_randoms (a : Nat) (b : Byte) : (s.memWrite a b).randoms = s.randoms := rfl
@[simp] theorem memWrite_samples (a : Nat) (b : Byte) : (s.memWrite a b).samples = s.samples := rfl
@[simp] theorem memWrite_draws (a : Nat) (b : Byte) : (s.memWrite a b).draws = s.draws := rfl
@[simp] theorem memWrite_readV (a : Nat) (b : Byte) (q : Reg) : (s.memWrite a b).readV q = s.readV q := rfl

/-! ### `push` -/

@[simp] theorem push_v (t : Word) : (s.push t).v = s.v := rfl
@[simp] theorem push_i (t : Word) : (s.push t).i = s.i := rfl
@[simp] theorem push_pc (t : Word) : (s.push t).pc = s.pc := rfl
@[simp] theorem push_stack (t : Word) : (s.push t).stack = s.stack.set s.sp t := rfl
@[simp] theorem push_sp (t : Word) : (s.push t).sp = s.sp + 1 := rfl
@[simp] theorem push_dt (t : Word) : (s.push t).dt = s.dt := rfl
@[simp] theorem push_st (t : Word) : (s.push t).st = s.st := rfl
@[simp] theorem push_accI (t : Word) : (s.push t).accI = s.accI := rfl
@[simp] theorem push_accT (t : Word) : (s.push t).accT = s.accT := rfl
@[simp] theorem push_disp (t : Word) : (s.push t).disp = s.disp := rfl
@[simp] theorem push_prev (t : Word) : (s.push t).prev = s.prev := rfl
@[simp] theorem push_dirty (t : Word) : (s.push t).dirty = s.dirty := rfl
@[simp] theorem push_status (t : Word) : (s.push t).status = s.status := rfl
@[simp] theorem push_mem (t : Word) : (s.push t).mem = s.mem := rfl
@[simp] theorem push_cfg (t : Word) : (s.push t).cfg = s.cfg := rfl
@[simp] theorem push_report (t : Word) : (s.push t).report = s.report := rfl
@[simp] theorem push_loadable (t : Word) : (s.push t).loadable = s.loadable := rfl
@[simp] theorem push_actions (t : Word) : (s.push t).actions = s.actions := rfl
@[simp] theorem push_randoms (t : Word) : (s.push t).randoms = s.randoms := rfl
@[simp] theorem push_samples (t : Word) : (s.push t).samples = s.samples := rfl
@[simp] theorem push_draws (t : Word) : (s.push t).draws = s.draws := rfl
@[simp] theorem push_readV (t : Word) (q : Reg) : (s.push t).readV q = s.readV q := rfl
@[simp] theorem push_memRead (t : Word) (n : Nat) : (s.push t).memRead n = s.memRead n := rfl

/-! ### `dropSlot` -/

@[simp] theorem dropSlot_v : (s.dropSlot).v = s.v := rfl
@[simp] theorem dropSlot_i : (s.dropSlot).i = s.i := rfl
@[simp] theorem dropSlot_pc : (s.dropSlot).pc = s.pc := rfl
@[simp] theorem dropSlot_stack : (s.dropSlot).stack = s.stack := rfl
@[simp] theorem dropSlot_sp : (s.dropSlot).sp = s.sp - 1 := rfl
@[simp] theorem dropSlot_dt : (s.dropSlot).dt = s.dt := rfl
@[simp] theorem dropSlot_st : (s.dropSlot).st = s.st := rfl
@[simp] theorem dropSlot_accI : (s.dropSlot).accI = s.accI := rfl
@[simp] theorem dropSlot_accT : (s.dropSlot).accT = s.accT := rfl
@[simp] theorem dropSlot_disp : (s.dropSlot).disp = s.disp := rfl
@[simp] theorem dropSlot_prev : (s.dropSlot).prev = s.prev := rfl
@[simp] theorem dropSlot_dirty : (s.dropSlot).dirty = s.dirty := rfl
@[simp] theorem dropSlot_status : (s.dropSlot).status = s.status := rfl
@[simp] theorem dropSlot_mem : (s.dropSlot).mem = s.mem := rfl
@[simp] theorem dropSlot_cfg : (s.dropSlot).cfg = s.cfg := rfl
@[simp] theorem dropSlot_report : (s.dropSlot).report = s.report := rfl
@[simp] theorem dropSlot_loadable : (s.dropSlot).loadable = s.loadable := rfl
@[simp] theorem dropSlot_actions : (s.dropSlot).actions = s.actions := rfl
@[simp] theorem dropSlot_randoms : (s.dropSlot).randoms = s.randoms := rfl
@[simp] theorem dropSlot_samples : (s.dropSlot).samples = s.samples := rfl
@[simp] theorem dropSlot_draws : (s.dropSlot).draws = s.draws := rfl
@[simp] theorem dropSlot_readV (q : Reg) : (s.dropSlot).readV q = s.readV q := rfl
@[simp] theorem dropSlot_memRead (n : Nat) : (s.dropSlot).memRead n = s.memRead n := rfl

/-! ### `raise` -/

@[simp] theorem raise_v (e : FatalError) : (s.raise e).v = s.v := rfl
@[simp] theorem raise_i (e : FatalError) : (s.raise e).i = s.i := rfl
@[simp] theorem raise_pc (e : FatalError) : (s.raise e).pc = s.pc := rfl
@[simp] theorem raise_stack (e : FatalError) : (s.raise e).stack = s.stack := rfl
@[simp] theorem raise_sp (e : FatalError) : (s.raise e).sp = s.sp := rfl
@[simp] theorem raise_dt (e : FatalError) : (s.raise e).dt = s.dt := rfl
@[simp] theorem raise_st (e : FatalError) : (s.raise e).st = s.st := rfl
@[simp] theorem raise_accI (e : FatalError) : (s.raise e).accI = s.accI := rfl
@[simp] theorem raise_accT (e : FatalError) : (s.raise e).accT = s.accT := rfl
@[simp] theorem raise_disp (e : FatalError) : (s.raise e).disp = s.disp := rfl
@[simp] theorem raise_prev (e : FatalError) : (s.raise e).prev = s.prev := rfl
@[simp] theorem raise_dirty (e : FatalError) : (s.raise e).dirty = s.dirty := rfl
@[simp] theorem raise_status (e : FatalError) : (s.raise e).status = .halted e := rfl
@[simp] theorem raise_mem (e : FatalError) : (s.raise e).mem = s.mem := rfl
@[simp] theorem raise_cfg (e : FatalError) : (s.raise e).cfg = s.cfg := rfl
@[simp] theorem raise_report (e : FatalError) : (s.raise e).report = s.report := rfl
@[simp] theorem raise_loadable (e : FatalError) : (s.raise e).loadable = s.loadable := rfl
@[simp] theorem raise_actions (e : FatalError) : (s.raise e).actions = s.actions := rfl
@[simp] theorem raise_randoms (e : FatalError) : (s.raise e).randoms = s.randoms := rfl
@[simp] theorem raise_samples (e : FatalError) : (s.raise e).samples = s.samples := rfl
@[simp] theorem raise_draws (e : FatalError) : (s.raise e).draws = s.draws := rfl
@[simp] theorem raise_readV (e : FatalError) (q : Reg) : (s.raise e).readV q = s.readV q := rfl
@[simp] theorem raise_memRead (e : FatalError) (n : Nat) : (s.raise e).memRead n = s.memRead n := rfl

/-! ### `signalInputFailure` -/

@[simp] theorem signalInputFailure_v (w : Word) : (s.signalInputFailure w).v = s.v := rfl
@[simp] theorem signalInputFailure_i (w : Word) : (s.signalInputFailure w).i = s.i := rfl
@[simp] theorem signalInputFailure_pc (w : Word) : (s.signalInputFailure w).pc = s.pc := rfl
@[simp] theorem signalInputFailure_stack (w : Word) : (s.signalInputFailure w).stack = s.stack := rfl
@[simp] theorem signalInputFailure_sp (w : Word) : (s.signalInputFailure w).sp = s.sp := rfl
@[simp] theorem signalInputFailure_dt (w : Word) : (s.signalInputFailure w).dt = s.dt := rfl
@[simp] theorem signalInputFailure_st (w : Word) : (s.signalInputFailure w).st = s.st := rfl
@[simp] theorem signalInputFailure_accI (w : Word) : (s.signalInputFailure w).accI = s.accI := rfl
@[simp] theorem signalInputFailure_accT (w : Word) : (s.signalInputFailure w).accT = s.accT := rfl
@[simp] theorem signalInputFailure_disp (w : Word) : (s.signalInputFailure w).disp = s.disp := rfl
@[simp] theorem signalInputFailure_prev (w : Word) : (s.signalInputFailure w).prev = s.prev := rfl
@[simp] theorem signalInputFailure_dirty (w : Word) : (s.signalInputFailure w).dirty = s.dirty := rfl
@[simp] theorem signalInputFailure_status (w : Word) : (s.signalInputFailure w).status = s.status := rfl
@[simp] theorem signalInputFailure_mem (w : Word) : (s.signalInputFailure w).mem = s.mem := rfl
@[simp] theorem signalInputFailure_cfg (w : Word) : (s.signalInputFailure w).cfg = s.cfg := rfl
@[simp] theorem signalInputFailure_report (w : Word) : (s.signalInputFailure w).report = .inputFailure w s.pc := rfl
@[simp] theorem signalInputFailure_loadable (w : Word) : (s.signalInputFailure w).loadable = s.loadable := rfl
@[simp] theorem signalInputFailure_actions (w : Word) : (s.signalInputFailure w).actions = s.actions := rfl
@[simp] theorem signalInputFailure_randoms (w : Word) : (s.signalInputFailure w).randoms = s.randoms := rfl
@[simp] theorem signalInputFailure_samples (w : Word) : (s.signalInputFailure w).samples = s.samples := rfl
@[simp] theorem signalInputFailure_draws (w : Word) : (s.signalInputFailure w).draws = s.draws := rfl
@[simp] theorem signalInputFailure_readV (w : Word) (q : Reg) : (s.signalInputFailure w).readV q = s.readV q := rfl
@[simp] theorem signalInputFailure_memRead (w : Word) (n : Nat) : (s.signalInputFailure w).memRead n = s.memRead n := rfl

/-! ### `dropRandom` -/

@[simp] theorem dropRandom_v : (s.dropRandom).v = s.v := by unfold State.dropRandom; split <;> simp_all
@[simp] theorem dropRandom_i : (s.dropRandom).i = s.i := by unfold State.dropRandom; split <;> simp_all
@[simp] theorem dropRandom_pc : (s.dropRandom).pc = s.pc := by unfold State.dropRandom; split <;> simp_all
@[simp] theorem dropRandom_stack : (s.dropRandom).stack = s.stack := by unfold State.dropRandom; split <;> simp_all
@[simp] theorem dropRandom_sp : (s.dropRandom).sp = s.sp := by unfold State.dropRandom; split <;> simp_all
@[simp] theorem dropRandom_dt : (s.dropRandom).dt = s.dt := by unfold State.dropRandom; split <;> simp_all
@[simp] theorem dropRandom_st : (s.dropRandom).st = s.st := by unfold State.dropRandom; split <;> simp_all
@[simp] theorem dropRandom_accI : (s.dropRandom).accI = s.accI := by unfold State.dropRandom; split <;> simp_all
@[simp] theorem dropRandom_accT : (s.dropRandom).accT = s.accT := by unfold State.dropRandom; split <;> simp_all
@[simp] theorem dropRandom_disp : (s.dropRandom).disp = s.disp := by unfold State.dropRandom; split <;> simp_all
@[simp] theorem dropRandom_prev : (s.dropRandom).prev = s.prev := by unfold State.dropRandom; split <;> simp_all
@[simp] theorem dropRandom_dirty : (s.dropRandom).dirty = s.dirty := by unfold State.dropRandom; split <;> simp_all
@[simp] theorem dropRandom_status : (s.dropRandom).status = s.status := by unfold State.dropRandom; split <;> simp_all
@[simp] theorem dropRandom_mem : (s.dropRandom).mem = s.mem := by unfold State.dropRandom; split <;> simp_all
@[simp] theorem dropRandom_cfg : (s.dropRandom).cfg = s.cfg := by unfold State.dropRandom; split <;> simp_all
@[simp] theorem dropRandom_report : (s.dropRandom).report = s.report := by unfold State.dropRandom; split <;> simp_all
@[simp] theorem dropRandom_loadable : (s.dropRandom).loadable = s.loadable := by unfold State.dropRandom; split <;> simp_all
@[simp] theorem dropRandom_actions : (s.dropRandom).actions = s.actions := by unfold State.dropRandom; split <;> simp_all
@[simp] theorem dropRandom_randoms : (s.dropRandom).randoms = s.randoms.tail := by unfold State.dropRandom; split <;> simp_all
@[simp] theorem dropRandom_samples : (s.dropRandom).samples = s.samples := by unfold State.dropRandom; split <;> simp_all
@[simp] theorem dropRandom_readV (q : Reg) : (s.dropRandom).readV q = s.readV q := by simp [State.readV]
@[simp] theorem dropRandom_memRead (n : Nat) : (s.dropRandom).memRead n = s.memRead n := by simp [State.memRead]

/-! ### `dropSample` -/

@[simp] theorem dropSample_v : (s.dropSample).v = s.v := by unfold State.dropSample; split <;> simp_all
@[simp] theorem dropSample_i : (s.dropSample).i = s.i := by unfold State.dropSample; split <;> simp_all
@[simp] theorem dropSample_pc : (s.dropSample).pc = s.pc := by unfold State.dropSample; split <;> simp_all
@[simp] theorem dropSample_stack : (s.dropSample).stack = s.stack := by unfold State.dropSample; split <;> simp_all
@[simp] theorem dropSample_sp : (s.dropSample).sp = s.sp := by unfold State.dropSample; split <;> simp_all
@[simp] theorem dropSample_dt : (s.dropSample).dt = s.dt := by unfold State.dropSample; split <;> simp_all
@[simp] theorem dropSample_st : (s.dropSample).st = s.st := by unfold State.dropSample; split <;> simp_all
@[simp] theorem dropSample_accI : (s.dropSample).accI = s.accI := by unfold State.dropSample; split <;> simp_all
@[simp] theorem dropSample_accT : (s.dropSample).accT = s.accT := by unfold State.dropSample; split <;> simp_all
@[simp] theorem dropSample_disp : (s.dropSample).disp = s.disp := by unfold State.dropSample; split <;> simp_all
@[simp] theorem dropSample_prev : (s.dropSample).prev = s.prev := by unfold State.dropSample; split <;> simp_all
@[simp] theorem dropSample_dirty : (s.dropSample).dirty = s.dirty := by unfold State.dropSample; split <;> simp_all
@[simp] theorem dropSample_status : (s.dropSample).status = s.status := by unfold State.dropSample; split <;> simp_all
@[simp] theorem dropSample_mem : (s.dropSample).mem = s.mem := by unfold State.dropSample; split <;> simp_all
@[simp] theorem dropSample_cfg : (s.dropSample).cfg = s.cfg := by unfold State.dropSample; split <;> simp_all
@[simp] theorem dropSample_report : (s.dropSample).report = s.report := by unfold State.dropSample; split <;> simp_all
@[simp] theorem dropSample_loadable : (s.dropSample).loadable = s.loadable := by unfold State.dropSample; split <;> simp_all
@[simp] theorem dropSample_actions : (s.dropSample).actions = s.actions := by unfold State.dropSample; split <;> simp_all
@[simp] theorem dropSample_randoms : (s.dropSample).randoms = s.randoms := by unfold State.dropSample; split <;> simp_all
@[simp] theorem dropSample_samples : (s.dropSample).samples = s.samples.tail := by unfold State.dropSample; split <;> simp_all
@[simp] theorem dropSample_readV (q : Reg) : (s.dropSample).readV q = s.readV q := by simp [State.readV]
@[simp] theorem dropSample_memRead (n : Nat) : (s.dropSample).memRead n = s.memRead n := by simp [State.memRead]

/-! ### `setDisplay` -/

@[simp] theorem setDisplay_v (g : Grid) : (s.setDisplay g).v = s.v := rfl
@[simp] theorem setDisplay_i (g : Grid) : (s.setDisplay g).i = s.i := rfl
@[simp] theorem setDisplay_pc (g : Grid) : (s.setDisplay g).pc = s.pc := rfl
@[simp] theorem setDisplay_stack (g : Grid) : (s.setDisplay g).stack = s.stack := rfl
@[simp] theorem setDisplay_sp (g : Grid) : (s.setDisplay g).sp = s.sp := rfl
@[simp] theorem setDisplay_dt (g : Grid) : (s.setDisplay g).dt = s.dt := rfl
@[simp] theorem setDisplay_st (g : Grid) : (s.setDisplay g).st = s.st := rfl
@[simp] theorem setDisplay_accI (g : Grid) : (s.setDisplay g).accI = s.accI := rfl
@[simp] theorem setDisplay_accT (g : Grid) : (s.setDisplay g).accT = s.accT := rfl
@[simp] theorem setDisplay_disp (g : Grid) : (s.setDisplay g).disp = g := rfl
@[simp] theorem setDisplay_prev (g : Grid) : (s.setDisplay g).prev = s.prev := rfl
@[simp] theorem setDisplay_dirty (g : Grid) : (s.setDisplay g).dirty = true := rfl
@[simp] theorem setDisplay_status (g : Grid) : (s.setDisplay g).status = s.status := rfl
@[simp] theorem setDisplay_mem (g : Grid) : (s.setDisplay g).mem = s.mem := rfl
@[simp] theorem setDisplay_cfg (g : Grid) : (s.setDisplay g).cfg = s.cfg := rfl
@[simp] theorem setDisplay_report (g : Grid) : (s.setDisplay g).report = s.report := rfl
@[simp] theorem setDisplay_loadable (g : Grid) : (s.setDisplay g).loadable = s.loadable := rfl
@[simp] theorem setDisplay_actions (g : Grid) : (s.setDisplay g).actions = s.actions := rfl
@[simp] theorem setDisplay_randoms (g : Grid) : (s.setDisplay g).randoms = s.randoms := rfl
@[simp] theorem setDisplay_samples (g : Grid) : (s.setDisplay g).samples = s.samples := rfl
@[simp] theorem setDisplay_draws (g : Grid) : (s.setDisplay g).draws = s.draws := rfl
@[simp] theorem setDisplay_readV (g : Grid) (q : Reg) : (s.setDisplay g).readV q = s.readV q := rfl
@[simp] theorem setDisplay_memRead (g : Grid) (n : Nat) : (s.setDisplay g).memRead n = s.memRead n := rfl

/-! ### `beginWait` -/

@[simp] theorem beginWait_v (x : Reg) : (s.beginWait x).v = s.v := rfl
@[simp] theorem beginWait_i (x : Reg) : (s.beginWait x).i = s.i := rfl
@[simp] theorem beginWait_pc (x : Reg) : (s.beginWait x).pc = s.pc := rfl
@[simp] theorem beginWait_stack (x : Reg) : (s.beginWait x).stack = s.stack := rfl
@[simp] theorem beginWait_sp (x : Reg) : (s.beginWait x).sp = s.sp := rfl
@[simp] theorem beginWait_dt (x : Reg) : (s.beginWait x).dt = s.dt := rfl
@[simp] theorem beginWait_st (x : Reg) : (s.beginWait x).st = s.st := rfl
@[simp] theorem beginWait_accI (x : Reg) : (s.beginWait x).accI = s.accI := rfl
@[simp] theorem beginWait_accT (x : Reg) : (s.beginWait x).accT = s.accT := rfl
@[simp] theorem beginWait_disp (x : Reg) : (s.beginWait x).disp = s.disp := rfl
@[simp] theorem beginWait_prev (x : Reg) : (s.beginWait x).prev = s.prev := rfl
@[simp] theorem beginWait_dirty (x : Reg) : (s.beginWait x).dirty = s.dirty := rfl
@[simp] theorem beginWait_status (x : Reg) : (s.beginWait x).status = .waiting x := rfl
@[simp] theorem beginWait_mem (x : Reg) : (s.beginWait x).mem = s.mem := rfl
@[simp] theorem beginWait_cfg (x : Reg) : (s.beginWait x).cfg = s.cfg := rfl
@[simp] theorem beginWait_report (x : Reg) : (s.beginWait x).report = s.report := rfl
@[simp] theorem beginWait_loadable (x : Reg) : (s.beginWait x).loadable = s.loadable := rfl
@[simp] theorem beginWait_actions (x : Reg) : (s.beginWait x).actions = s.actions := rfl
@[simp] theorem beginWait_randoms (x : Reg) : (s.beginWait x).randoms = s.randoms := rfl
@[simp] theorem beginWait_samples (x : Reg) : (s.beginWait x).samples = s.samples := rfl
@[simp] theorem beginWait_draws (x : Reg) : (s.beginWait x).draws = s.draws := rfl
@[simp] theorem beginWait_readV (x : Reg) (q : Reg) : (s.beginWait x).readV q = s.readV q := rfl
@[simp] theorem beginWait_memRead (x : Reg) (n : Nat) : (s.beginWait x).memRead n = s.memRead n := rfl

/-! ### `endWait` -/

@[simp] theorem endWait_v (x : Reg) (k : Key) : (s.endWait x k).v = s.v.set x (BitVec.ofNat 8 k.val) := rfl
@[simp] theorem endWait_i (x : Reg) (k : Key) : (s.endWait x k).i = s.i := rfl
@[simp] theorem endWait_pc (x : Reg) (k : Key) : (s.endWait x k).pc = s.pc + 2 := rfl
@[simp] theorem endWait_stack (x : Reg) (k : Key) : (s.endWait x k).stack = s.stack := rfl
@[simp] theorem endWait_sp (x : Reg) (k : Key) : (s.endWait x k).sp = s.sp := rfl
@[simp] theorem endWait_dt (x : Reg) (k : Key) : (s.endWait x k).dt = s.dt := rfl
@[simp] theorem endWait_st (x : Reg) (k : Key) : (s.endWait x k).st = s.st := rfl
@[simp] theorem endWait_accI (x : Reg) (k : Key) : (s.endWait x k).accI = s.accI := rfl
@[simp] theorem endWait_accT (x : Reg) (k : Key) : (s.endWait x k).accT = s.accT := rfl
@[simp] theorem endWait_disp (x : Reg) (k : Key) : (s.endWait x k).disp = s.disp := rfl
@[simp] theorem endWait_prev (x : Reg) (k : Key) : (s.endWait x k).prev = s.prev := rfl
@[simp] theorem endWait_dirty (x : Reg) (k : Key) : (s.endWait x k).dirty = s.dirty := rfl
@[simp] theorem endWait_status (x : Reg) (k : Key) : (s.endWait x k).status = .running := rfl
@[simp] theorem endWait_mem (x : Reg) (k : Key) : (s.endWait x k).mem = s.mem := rfl
@[simp] theorem endWait_cfg (x : Reg) (k : Key) : (s.endWait x k).cfg = s.cfg := rfl
@[simp] theorem endWait_report (x : Reg) (k : Key) : (s.endWait x k).report = s.report := rfl
@[simp] theorem endWait_loadable (x : Reg) (k : Key) : (s.endWait x k).loadable = s.loadable := rfl
@[simp] theorem endWait_actions (x : Reg) (k : Key) : (s.endWait x k).actions = s.actions := rfl
@[simp] theorem endWait_randoms (x : Reg) (k : Key) : (s.endWait x k).randoms = s.randoms := rfl
@[simp] theorem endWait_samples (x : Reg) (k : Key) : (s.endWait x k).samples = s.samples := rfl
@[simp] theorem endWait_draws (x : Reg) (k : Key) : (s.endWait x k).draws = s.draws := rfl
@[simp] theorem endWait_memRead (x : Reg) (k : Key) (n : Nat) : (s.endWait x k).memRead n = s.memRead n := rfl

/-! ### `abandonWait` -/

@[simp] theorem abandonWait_v (x : Reg) : (s.abandonWait x).v = s.v := rfl
@[simp] theorem abandonWait_i (x : Reg) : (s.abandonWait x).i = s.i := rfl
@[simp] theorem abandonWait_pc (x : Reg) : (s.abandonWait x).pc = s.pc := rfl
@[simp] theorem abandonWait_stack (x : Reg) : (s.abandonWait x).stack = s.stack := rfl
@[simp] theorem abandonWait_sp (x : Reg) : (s.abandonWait x).sp = s.sp := rfl
@[simp] theorem abandonWait_dt (x : Reg) : (s.abandonWait x).dt = s.dt := rfl
@[simp] theorem abandonWait_st (x : Reg) : (s.abandonWait x).st = s.st := rfl
@[simp] theorem abandonWait_accI (x : Reg) : (s.abandonWait x).accI = s.accI := rfl
@[simp] theorem abandonWait_accT (x : Reg) : (s.abandonWait x).accT = s.accT := rfl
@[simp] theorem abandonWait_disp (x : Reg) : (s.abandonWait x).disp = s.disp := rfl
@[simp] theorem abandonWait_prev (x : Reg) : (s.abandonWait x).prev = s.prev := rfl
@[simp] theorem abandonWait_dirty (x : Reg) : (s.abandonWait x).dirty = s.dirty := rfl
@[simp] theorem abandonWait_status (x : Reg) : (s.abandonWait x).status = .running := rfl
@[simp] theorem abandonWait_mem (x : Reg) : (s.abandonWait x).mem = s.mem := rfl
@[simp] theorem abandonWait_cfg (x : Reg) : (s.abandonWait x).cfg = s.cfg := rfl
@[simp] theorem abandonWait_report (x : Reg) : (s.abandonWait x).report = .inputFailure (encode (.ldVxK x)) s.pc := rfl
@[simp] theorem abandonWait_loadable (x : Reg) : (s.abandonWait x).loadable = s.loadable := rfl
@[simp] theorem abandonWait_actions (x : Reg) : (s.abandonWait x).actions = s.actions := rfl
@[simp] theorem abandonWait_randoms (x : Reg) : (s.abandonWait x).randoms = s.randoms := rfl
@[simp] theorem abandonWait_samples (x : Reg) : (s.abandonWait x).samples = s.samples := rfl
@[simp] theorem abandonWait_draws (x : Reg) : (s.abandonWait x).draws = s.draws := rfl
@[simp] theorem abandonWait_readV (x : Reg) (q : Reg) : (s.abandonWait x).readV q = s.readV q := rfl
@[simp] theorem abandonWait_memRead (x : Reg) (n : Nat) : (s.abandonWait x).memRead n = s.memRead n := rfl

/-! ### `timerDecay` -/

@[simp] theorem timerDecay_v : (s.timerDecay).v = s.v := rfl
@[simp] theorem timerDecay_i : (s.timerDecay).i = s.i := rfl
@[simp] theorem timerDecay_pc : (s.timerDecay).pc = s.pc := rfl
@[simp] theorem timerDecay_stack : (s.timerDecay).stack = s.stack := rfl
@[simp] theorem timerDecay_sp : (s.timerDecay).sp = s.sp := rfl
@[simp] theorem timerDecay_dt : (s.timerDecay).dt = decayByte s.dt := rfl
@[simp] theorem timerDecay_st : (s.timerDecay).st = decayByte s.st := rfl
@[simp] theorem timerDecay_accI : (s.timerDecay).accI = s.accI := rfl
@[simp] theorem timerDecay_accT : (s.timerDecay).accT = s.accT := rfl
@[simp] theorem timerDecay_disp : (s.timerDecay).disp = s.disp := rfl
@[simp] theorem timerDecay_prev : (s.timerDecay).prev = s.prev := rfl
@[simp] theorem timerDecay_dirty : (s.timerDecay).dirty = s.dirty := rfl
@[simp] theorem timerDecay_status : (s.timerDecay).status = s.status := rfl
@[simp] theorem timerDecay_mem : (s.timerDecay).mem = s.mem := rfl
@[simp] theorem timerDecay_cfg : (s.timerDecay).cfg = s.cfg := rfl
@[simp] theorem timerDecay_report : (s.timerDecay).report = s.report := rfl
@[simp] theorem timerDecay_loadable : (s.timerDecay).loadable = s.loadable := rfl
@[simp] theorem timerDecay_actions : (s.timerDecay).actions = s.actions := rfl
@[simp] theorem timerDecay_randoms : (s.timerDecay).randoms = s.randoms := rfl
@[simp] theorem timerDecay_samples : (s.timerDecay).samples = s.samples := rfl
@[simp] theorem timerDecay_draws : (s.timerDecay).draws = s.draws := rfl
@[simp] theorem timerDecay_readV (q : Reg) : (s.timerDecay).readV q = s.readV q := rfl
@[simp] theorem timerDecay_memRead (n : Nat) : (s.timerDecay).memRead n = s.memRead n := rfl

/-! ### `timerEvent` -/

@[simp] theorem timerEvent_v : (s.timerEvent).v = s.v := by unfold State.timerEvent; split <;> rfl
@[simp] theorem timerEvent_i : (s.timerEvent).i = s.i := by unfold State.timerEvent; split <;> rfl
@[simp] theorem timerEvent_pc : (s.timerEvent).pc = s.pc := by unfold State.timerEvent; split <;> rfl
@[simp] theorem timerEvent_stack : (s.timerEvent).stack = s.stack := by unfold State.timerEvent; split <;> rfl
@[simp] theorem timerEvent_sp : (s.timerEvent).sp = s.sp := by unfold State.timerEvent; split <;> rfl
@[simp] theorem timerEvent_dt : (s.timerEvent).dt = if s.accT = 0 then decayByte s.dt else s.dt := by unfold State.timerEvent; split <;> rfl
@[simp] theorem timerEvent_st : (s.timerEvent).st = if s.accT = 0 then decayByte s.st else s.st := by unfold State.timerEvent; split <;> rfl
@[simp] theorem timerEvent_accI : (s.timerEvent).accI = s.accI := by unfold State.timerEvent; split <;> rfl
@[simp] theorem timerEvent_accT : (s.timerEvent).accT = if s.accT = 0 then periodT s.cfg else s.accT := by unfold State.timerEvent; split <;> rfl
@[simp] theorem timerEvent_disp : (s.timerEvent).disp = s.disp := by unfold State.timerEvent; split <;> rfl
@[simp] theorem timerEvent_prev : (s.timerEvent).prev = s.prev := by unfold State.timerEvent; split <;> rfl
@[simp] theorem timerEvent_dirty : (s.timerEvent).dirty = s.dirty := by unfold State.timerEvent; split <;> rfl
@[simp] theorem timerEvent_status : (s.timerEvent).status = s.status := by unfold State.timerEvent; split <;> rfl
@[simp] theorem timerEvent_mem : (s.timerEvent).mem = s.mem := by unfold State.timerEvent; split <;> rfl
@[simp] theorem timerEvent_cfg : (s.timerEvent).cfg = s.cfg := by unfold State.timerEvent; split <;> rfl
@[simp] theorem timerEvent_report : (s.timerEvent).report = s.report := by unfold State.timerEvent; split <;> rfl
@[simp] theorem timerEvent_loadable : (s.timerEvent).loadable = s.loadable := by unfold State.timerEvent; split <;> rfl
@[simp] theorem timerEvent_actions : (s.timerEvent).actions = s.actions := by unfold State.timerEvent; split <;> rfl
@[simp] theorem timerEvent_randoms : (s.timerEvent).randoms = s.randoms := by unfold State.timerEvent; split <;> rfl
@[simp] theorem timerEvent_samples : (s.timerEvent).samples = s.samples := by unfold State.timerEvent; split <;> rfl
@[simp] theorem timerEvent_draws : (s.timerEvent).draws = s.draws := by unfold State.timerEvent; split <;> rfl
@[simp] theorem timerEvent_readV (q : Reg) : (s.timerEvent).readV q = s.readV q := by simp [State.readV]
@[simp] theorem timerEvent_memRead (n : Nat) : (s.timerEvent).memRead n = s.memRead n := by simp [State.memRead]

/-! ### `sleepUntilNext` -/

@[simp] theorem sleepUntilNext_v : (s.sleepUntilNext).v = s.v := rfl
@[simp] theorem sleepUntilNext_i : (s.sleepUntilNext).i = s.i := rfl
@[simp] theorem sleepUntilNext_pc : (s.sleepUntilNext).pc = s.pc := rfl
@[simp] theorem sleepUntilNext_stack : (s.sleepUntilNext).stack = s.stack := rfl
@[simp] theorem sleepUntilNext_sp : (s.sleepUntilNext).sp = s.sp := rfl
@[simp] theorem sleepUntilNext_dt : (s.sleepUntilNext).dt = s.dt := rfl
@[simp] theorem sleepUntilNext_st : (s.sleepUntilNext).st = s.st := rfl
@[simp] theorem sleepUntilNext_accI : (s.sleepUntilNext).accI = s.accI - min s.accI s.accT := rfl
@[simp] theorem sleepUntilNext_accT : (s.sleepUntilNext).accT = s.accT - min s.accI s.accT := rfl
@[simp] theorem sleepUntilNext_disp : (s.sleepUntilNext).disp = s.disp := rfl
@[simp] theorem sleepUntilNext_prev : (s.sleepUntilNext).prev = s.prev := rfl
@[simp] theorem sleepUntilNext_dirty : (s.sleepUntilNext).dirty = s.dirty := rfl
@[simp] theorem sleepUntilNext_status : (s.sleepUntilNext).status = s.status := rfl
@[simp] theorem sleepUntilNext_mem : (s.sleepUntilNext).mem = s.mem := rfl
@[simp] theorem sleepUntilNext_cfg : (s.sleepUntilNext).cfg = s.cfg := rfl
@[simp] theorem sleepUntilNext_report : (s.sleepUntilNext).report = .sleep (min s.accI s.accT) := rfl
@[simp] theorem sleepUntilNext_loadable : (s.sleepUntilNext).loadable = s.loadable := rfl
@[simp] theorem sleepUntilNext_actions : (s.sleepUntilNext).actions = s.actions := rfl
@[simp] theorem sleepUntilNext_randoms : (s.sleepUntilNext).randoms = s.randoms := rfl
@[simp] theorem sleepUntilNext_samples : (s.sleepUntilNext).samples = s.samples := rfl
@[simp] theorem sleepUntilNext_draws : (s.sleepUntilNext).draws = s.draws := rfl
@[simp] theorem sleepUntilNext_readV (q : Reg) : (s.sleepUntilNext).readV q = s.readV q := rfl
@[simp] theorem sleepUntilNext_memRead (n : Nat) : (s.sleepUntilNext).memRead n = s.memRead n := rfl

/-! ### `beginStep` -/

@[simp] theorem beginStep_v : (s.beginStep).v = s.v := rfl
@[simp] theorem beginStep_i : (s.beginStep).i = s.i := rfl
@[simp] theorem beginStep_pc : (s.beginStep).pc = s.pc := rfl
@[simp] theorem beginStep_stack : (s.beginStep).stack = s.stack := rfl
@[simp] theorem beginStep_sp : (s.beginStep).sp = s.sp := rfl
@[simp] theorem beginStep_dt : (s.beginStep).dt = s.dt := rfl
@[simp] theorem beginStep_st : (s.beginStep).st = s.st := rfl
@[simp] theorem beginStep_accI : (s.beginStep).accI = s.accI := rfl
@[simp] theorem beginStep_accT : (s.beginStep).accT = s.accT := rfl
@[simp] theorem beginStep_disp : (s.beginStep).disp = s.disp := rfl
@[simp] theorem beginStep_prev : (s.beginStep).prev = s.prev := rfl
@[simp] theorem beginStep_dirty : (s.beginStep).dirty = s.dirty := rfl
@[simp] theorem beginStep_status : (s.beginStep).status = s.status := rfl
@[simp] theorem beginStep_mem : (s.beginStep).mem = s.mem := rfl
@[simp] theorem beginStep_cfg : (s.beginStep).cfg = s.cfg := rfl
@[simp] theorem beginStep_report : (s.beginStep).report = .idle := rfl
@[simp] theorem beginStep_loadable : (s.beginStep).loadable = false := rfl
@[simp] theorem beginStep_actions : (s.beginStep).actions = s.actions := rfl
@[simp] theorem beginStep_randoms : (s.beginStep).randoms = s.randoms := rfl
@[simp] theorem beginStep_samples : (s.beginStep).samples = s.samples := rfl
@[simp] theorem beginStep_draws : (s.beginStep).draws = s.draws := rfl
@[simp] theorem beginStep_readV (q : Reg) : (s.beginStep).readV q = s.readV q := rfl
@[simp] theorem beginStep_memRead (n : Nat) : (s.beginStep).memRead n = s.memRead n := rfl

/-! ### `redraw` -/

@[simp] theorem redraw_v : (s.redraw).v = s.v := by unfold State.redraw; split <;> simp_all
@[simp] theorem redraw_i : (s.redraw).i = s.i := by unfold State.redraw; split <;> simp_all
@[simp] theorem redraw_pc : (s.redraw).pc = s.pc := by unfold State.redraw; split <;> simp_all
@[simp] theorem redraw_stack : (s.redraw).stack = s.stack := by unfold State.redraw; split <;> simp_all
@[simp] theorem redraw_sp : (s.redraw).sp = s.sp := by unfold State.redraw; split <;> simp_all
@[simp] theorem redraw_dt : (s.redraw).dt = s.dt := by unfold State.redraw; split <;> simp_all
@[simp] theorem redraw_st : (s.redraw).st = s.st := by unfold State.redraw; split <;> simp_all
@[simp] theorem redraw_accI : (s.redraw).accI = s.accI := by unfold State.redraw; split <;> simp_all
@[simp] theorem redraw_accT : (s.redraw).accT = s.accT := by unfold State.redraw; split <;> simp_all
@[simp] theorem redraw_disp : (s.redraw).disp = s.disp := by unfold State.redraw; split <;> simp_all
@[simp] theorem redraw_prev : (s.redraw).prev = if s.dirty then s.disp else s.prev := by unfold State.redraw; split <;> simp_all
@[simp] theorem redraw_dirty : (s.redraw).dirty = false := by unfold State.redraw; split <;> simp_all
@[simp] theorem redraw_status : (s.redraw).status = s.status := by unfold State.redraw; split <;> simp_all
@[simp] theorem redraw_mem : (s.redraw).mem = s.mem := by unfold State.redraw; split <;> simp_all
@[simp] theorem redraw_cfg : (s.redraw).cfg = s.cfg := by unfold State.redraw; split <;> simp_all
@[simp] theorem redraw_report : (s.redraw).report = s.report := by unfold State.redraw; split <;> simp_all
@[simp] theorem redraw_loadable : (s.redraw).loadable = s.loadable := by unfold State.redraw; split <;> simp_all
@[simp] theorem redraw_actions : (s.redraw).actions = s.actions := by unfold State.redraw; split <;> simp_all
@[simp] theorem redraw_randoms : (s.redraw).randoms = s.randoms := by unfold State.redraw; split <;> simp_all
@[simp] theorem redraw_samples : (s.redraw).samples = s.samples := by unfold State.redraw; split <;> simp_all
@[simp] theorem redraw_draws : (s.redraw).draws = s.draws := by unfold State.redraw; split <;> simp_all
@[simp] theorem redraw_readV (q : Reg) : (s.redraw).readV q = s.readV q := by simp [State.readV]
@[simp] theorem redraw_memRead (n : Nat) : (s.redraw).memRead n = s.memRead n := by simp [State.memRead]

/-! ### `storeRegsUpTo` -/

@[simp] theorem storeRegsUpTo_v (n : Nat) : (s.storeRegsUpTo n).v = s.v := by
  induction n with
  | zero => rfl
  | succ n ih => simp [State.storeRegsUpTo, ih]
@[simp] theorem storeRegsUpTo_i (n : Nat) : (s.storeRegsUpTo n).i = s.i := by
  induction n with
  | zero => rfl
  | succ n ih => simp [State.storeRegsUpTo, ih]
@[simp] theorem storeRegsUpTo_pc (n : Nat) : (s.storeRegsUpTo n).pc = s.pc := by
  induction n with
  | zero => rfl
  | succ n ih => simp [State.storeRegsUpTo, ih]
@[simp] theorem storeRegsUpTo_stack (n : Nat) : (s.storeRegsUpTo n).stack = s.stack := by
  induction n with
  | zero => rfl
  | succ n ih => simp [State.storeRegsUpTo, ih]
@[simp] theorem storeRegsUpTo_sp (n : Nat) : (s.storeRegsUpTo n).sp = s.sp := by
  induction n with
  | zero => rfl
  | succ n ih => simp [State.storeRegsUpTo, ih]
@[simp] theorem storeRegsUpTo_dt (n : Nat) : (s.storeRegsUpTo n).dt = s.dt := by
  induction n with
  | zero => rfl
  | succ n ih => simp [State.storeRegsUpTo, ih]
@[simp] theorem storeRegsUpTo_st (n : Nat) : (s.storeRegsUpTo n).st = s.st := by
  induction n with
  | zero => rfl
  | succ n ih => simp [State.storeRegsUpTo, ih]
@[simp] theorem storeRegsUpTo_accI (n : Nat) : (s.storeRegsUpTo n).accI = s.accI := by
  induction n with
  | zero => rfl
  | succ n ih => simp [State.storeRegsUpTo, ih]
@[simp] theorem storeRegsUpTo_accT (n : Nat) : (s.storeRegsUpTo n).accT = s.accT := by
  induction n with
  | zero => rfl
  | succ n ih => simp [State.storeRegsUpTo, ih]
@[simp] theorem storeRegsUpTo_disp (n : Nat) : (s.storeRegsUpTo n).disp = s.disp := by
  induction n with
  | zero => rfl
  | succ n ih => simp [State.storeRegsUpTo, ih]
@[simp] theorem storeRegsUpTo_prev (n : Nat) : (s.storeRegsUpTo n).prev = s.prev := by
  induction n with
  | zero => rfl
  | succ n ih => simp [State.storeRegsUpTo, ih]
@[simp] theorem storeRegsUpTo_dirty (n : Nat) : (s.storeRegsUpTo n).dirty = s.dirty := by
  induction n with
  | zero => rfl
  | succ n ih => simp [State.storeRegsUpTo, ih]
@[simp] theorem storeRegsUpTo_status (n : Nat) : (s.storeRegsUpTo n).status = s.status := by
  induction n with
  | zero => rfl
  | succ n ih => simp [State.storeRegsUpTo, ih]
@[simp] theorem storeRegsUpTo_cfg (n : Nat) : (s.storeRegsUpTo n).cfg = s.cfg := by
  induction n with
  | zero => rfl
  | succ n ih => simp [State.storeRegsUpTo, ih]
@[simp] theorem storeRegsUpTo_report (n : Nat) : (s.storeRegsUpTo n).report = s.report := by
  induction n with
  | zero => rfl
  | succ n ih => simp [State.storeRegsUpTo, ih]
@[simp] theorem storeRegsUpTo_loadable (n : Nat) : (s.storeRegsUpTo n).loadable = s.loadable := by
  induction n with
  | zero => rfl
  | succ n ih => simp [State.storeRegsUpTo, ih]
@[simp] theorem storeRegsUpTo_actions (n : Nat) : (s.storeRegsUpTo n).actions = s.actions := by
  induction n with
  | zero => rfl
  | succ n ih => simp [State.storeRegsUpTo, ih]
@[simp] theorem storeRegsUpTo_randoms (n : Nat) : (s.storeRegsUpTo n).randoms = s.randoms := by
  induction n with
  | zero => rfl
  | succ n ih => simp [State.storeRegsUpTo, ih]
@[simp] theorem storeRegsUpTo_samples (n : Nat) : (s.storeRegsUpTo n).samples = s.samples := by
  induction n with
  | zero => rfl
  | succ n ih => simp [State.storeRegsUpTo, ih]
@[simp] theorem storeRegsUpTo_draws (n : Nat) : (s.storeRegsUpTo n).draws = s.draws := by
  induction n with
  | zero => rfl
  | succ n ih => simp [State.storeRegsUpTo, ih]
@[simp] theorem storeRegsUpTo_readV (n : Nat) (q : Reg) : (s.storeRegsUpTo n).readV q = s.readV q := by simp [State.readV]

/-! ### `loadRegsUpTo` -/

@[simp] theorem loadRegsUpTo_i (n : Nat) : (s.loadRegsUpTo n).i = s.i := by
  induction n with
  | zero => rfl
  | succ n ih => simp [State.loadRegsUpTo, ih]
@[simp] theorem loadRegsUpTo_pc (n : Nat) : (s.loadRegsUpTo n).pc = s.pc := by
  induction n with
  | zero => rfl
  | succ n ih => simp [State.loadRegsUpTo, ih]
@[simp] theorem loadRegsUpTo_stack (n : Nat) : (s.loadRegsUpTo n).stack = s.stack := by
  induction n with
  | zero => rfl
  | succ n ih => simp [State.loadRegsUpTo, ih]
@[simp] theorem loadRegsUpTo_sp (n : Nat) : (s.loadRegsUpTo n).sp = s.sp := by
  induction n with
  | zero => rfl
  | succ n ih => simp [State.loadRegsUpTo, ih]
@[simp] theorem loadRegsUpTo_dt (n : Nat) : (s.loadRegsUpTo n).dt = s.dt := by
  induction n with
  | zero => rfl
  | succ n ih => simp [State.loadRegsUpTo, ih]
@[simp] theorem loadRegsUpTo_st (n : Nat) : (s.loadRegsUpTo n).st = s.st := by
  induction n with
  | zero => rfl
  | succ n ih => simp [State.loadRegsUpTo, ih]
@[simp] theorem loadRegsUpTo_accI (n : Nat) : (s.loadRegsUpTo n).accI = s.accI := by
  induction n with
  | zero => rfl
  | succ n ih => simp [State.loadRegsUpTo, ih]
@[simp] theorem loadRegsUpTo_accT (n : Nat) : (s.loadRegsUpTo n).accT = s.accT := by
  induction n with
  | zero => rfl
  | succ n ih => simp [State.loadRegsUpTo, ih]
@[simp] theorem loadRegsUpTo_disp (n : Nat) : (s.loadRegsUpTo n).disp = s.disp := by
  induction n with
  | zero => rfl
  | succ n ih => simp [State.loadRegsUpTo, ih]
@[simp] theorem loadRegsUpTo_prev (n : Nat) : (s.loadRegsUpTo n).prev = s.prev := by
  induction n with
  | zero => rfl
  | succ n ih => simp [State.loadRegsUpTo, ih]
@[simp] theorem loadRegsUpTo_dirty (n : Nat) : (s.loadRegsUpTo n).dirty = s.dirty := by
  induction n with
  | zero => rfl
  | succ n ih => simp [State.loadRegsUpTo, ih]
@[simp] theorem loadRegsUpTo_status (n : Nat) : (s.loadRegsUpTo n).status = s.status := by
  induction n with
  | zero => rfl
  | succ n ih => simp [State.loadRegsUpTo, ih]
@[simp] theorem loadRegsUpTo_mem (n : Nat) : (s.loadRegsUpTo n).mem = s.mem := by
  induction n with
  | zero => rfl
  | succ n ih => simp [State.loadRegsUpTo, ih]
@[simp] theorem loadRegsUpTo_cfg (n : Nat) : (s.loadRegsUpTo n).cfg = s.cfg := by
  induction n with
  | zero => rfl
  | succ n ih => simp [State.loadRegsUpTo, ih]
@[simp] theorem loadRegsUpTo_report (n : Nat) : (s.loadRegsUpTo n).report = s.report := by
  induction n with
  | zero => rfl
  | succ n ih => simp [State.loadRegsUpTo, ih]
@[simp] theorem loadRegsUpTo_loadable (n : Nat) : (s.loadRegsUpTo n).loadable = s.loadable := by
  induction n with
  | zero => rfl
  | succ n ih => simp [State.loadRegsUpTo, ih]
@[simp] theorem loadRegsUpTo_actions (n : Nat) : (s.loadRegsUpTo n).actions = s.actions := by
  induction n with
  | zero => rfl
  | succ n ih => simp [State.loadRegsUpTo, ih]
@[simp] theorem loadRegsUpTo_randoms (n : Nat) : (s.loadRegsUpTo n).randoms = s.randoms := by
  induction n with
  | zero => rfl
  | succ n ih => simp [State.loadRegsUpTo, ih]
@[simp] theorem loadRegsUpTo_samples (n : Nat) : (s.loadRegsUpTo n).samples = s.samples := by
  induction n with
  | zero => rfl
  | succ n ih => simp [State.loadRegsUpTo, ih]
@[simp] theorem loadRegsUpTo_draws (n : Nat) : (s.loadRegsUpTo n).draws = s.draws := by
  induction n with
  | zero => rfl
  | succ n ih => simp [State.loadRegsUpTo, ih]
@[simp] theorem loadRegsUpTo_memRead (n a : Nat) : (s.loadRegsUpTo n).memRead a = s.memRead a := by simp [State.memRead]

/-! ### `memWriteList` -/

@[simp] theorem memWriteList_v (a : Nat) (bs : List Byte) : (s.memWriteList a bs).v = s.v := by
  induction bs generalizing s a with
  | nil => rfl
  | cons b bs ih => simp [State.memWriteList, ih]
@[simp] theorem memWriteList_i (a : Nat) (bs : List Byte) : (s.memWriteList a bs).i = s.i := by
  induction bs generalizing s a with
  | nil => rfl
  | cons b bs ih => simp [State.memWriteList, ih]
@[simp] theorem memWriteList_pc (a : Nat) (bs : List Byte) : (s.memWriteList a bs).pc = s.pc := by
  induction bs generalizing s a with
  | nil => rfl
  | cons b bs ih => simp [State.memWriteList, ih]
@[simp] theorem memWriteList_stack (a : Nat) (bs : List Byte) : (s.memWriteList a bs).stack = s.stack := by
  induction bs generalizing s a with
  | nil => rfl
  | cons b bs ih => simp [State.memWriteList, ih]
@[simp] theorem memWriteList_sp (a : Nat) (bs : List Byte) : (s.memWriteList a bs).sp = s.sp := by
  induction bs generalizing s a with
  | nil => rfl
  | cons b bs ih => simp [State.memWriteList, ih]
@[simp] theorem memWriteList_dt (a : Nat) (bs : List Byte) : (s.memWriteList a bs).dt = s.dt := by
  induction bs generalizing s a with
  | nil => rfl
  | cons b bs ih => simp [State.memWriteList, ih]
@[simp] theorem memWriteList_st (a : Nat) (bs : List Byte) : (s.memWriteList a bs).st = s.st := by
  induction bs generalizing s a with
  | nil => rfl
  | cons b bs ih => simp [State.memWriteList, ih]
@[simp] theorem memWriteList_accI (a : Nat) (bs : List Byte) : (s.memWriteList a bs).accI = s.accI := by
  induction bs generalizing s a with
  | nil => rfl
  | cons b bs ih => simp [State.memWriteList, ih]
@[simp] theorem memWriteList_accT (a : Nat) (bs : List Byte) : (s.memWriteList a bs).accT = s.accT := by
  induction bs generalizing s a with
  | nil => rfl
  | cons b bs ih => simp [State.memWriteList, ih]
@[simp] theorem memWriteList_disp (a : Nat) (bs : List Byte) : (s.memWriteList a bs).disp = s.disp := by
  induction bs generalizing s a with
  | nil => rfl
  | cons b bs ih => simp [State.memWriteList, ih]
@[simp] theorem memWriteList_prev (a : Nat) (bs : List Byte) : (s.memWriteList a bs).prev = s.prev := by
  induction bs generalizing s a with
  | nil => rfl
  | cons b bs ih => simp [State.memWriteList, ih]
@[simp] theorem memWriteList_dirty (a : Nat) (bs : List Byte) : (s.memWriteList a bs).dirty = s.dirty := by
  induction bs generalizing s a with
  | nil => rfl
  | cons b bs ih => simp [State.memWriteList, ih]
@[simp] theorem memWriteList_status (a : Nat) (bs : List Byte) : (s.memWriteList a bs).status = s.status := by
  induction bs generalizing s a with
  | nil => rfl
  | cons b bs ih => simp [State.memWriteList, ih]
@[simp] theorem memWriteList_cfg (a : Nat) (bs : List Byte) : (s.memWriteList a bs).cfg = s.cfg := by
  induction bs generalizing s a with
  | nil => rfl
  | cons b bs ih => simp [State.memWriteList, ih]
@[simp] theorem memWriteList_report (a : Nat) (bs : List Byte) : (s.memWriteList a bs).report = s.report := by
  induction bs generalizing s a with
  | nil => rfl
  | cons b bs ih => simp [State.memWriteList, ih]
@[simp] theorem memWriteList_loadable (a : Nat) (bs : List Byte) : (s.memWriteList a bs).loadable = s.loadable := by
  induction bs generalizing s a with
  | nil => rfl
  | cons b bs ih => simp [State.memWriteList, ih]
@[simp] theorem memWriteList_actions (a : Nat) (bs : List Byte) : (s.memWriteList a bs).actions = s.actions := by
  induction bs generalizing s a with
  | nil => rfl
  | cons b bs ih => simp [State.memWriteList, ih]
@[simp] theorem memWriteList_randoms (a : Nat) (bs : List Byte) : (s.memWriteList a bs).randoms = s.randoms := by
  induction bs generalizing s a with
  | nil => rfl
  | cons b bs ih => simp [State.memWriteList, ih]
@[simp] theorem memWriteList_samples (a : Nat) (bs : List Byte) : (s.memWriteList a bs).samples = s.samples := by
  induction bs generalizing s a with
  | nil => rfl
  | cons b bs ih => simp [State.memWriteList, ih]
@[simp] theorem memWriteList_draws (a : Nat) (bs : List Byte) : (s.memWriteList a bs).draws = s.draws := by
  induction bs generalizing s a with
  | nil => rfl
  | cons b bs ih => simp [State.memWriteList, ih]

end Sys2Proof.Machine
end

