-- ==== Sys2Proof/Laws/Memory.lean ====
section
/-! SUPPORT. Memory: every operation keeps the canonical form; a read after a write; the wide operations byte by byte. -/

namespace Sys2Proof.Machine

variable {g : GlyphTable} {m : Memory} {lo a b : Nat} {v w : Byte}

theorem wfFrom_cons : Memory.wfFrom g lo ((a, v) :: m) = true ↔
    lo ≤ a ∧ a < memSize ∧ v ≠ unlisted g a ∧ Memory.wfFrom g (a + 1) m = true := by
  simp [Memory.wfFrom, and_assoc]

theorem wfFrom_mono (h : Memory.wfFrom g lo m = true) (hb : b ≤ lo) : Memory.wfFrom g b m = true := by
  cases m with
  | nil => rfl
  | cons c m => obtain ⟨a, v⟩ := c; rw [wfFrom_cons] at h ⊢; exact ⟨hb.trans h.1, h.2⟩

/-- Below every listed address, a read gives the reset content. -/
theorem read_below (h : Memory.wfFrom g lo m = true) (ha : a < lo) : Memory.read g m a = unlisted g a := by
  cases m with
  | nil => rfl
  | cons c m =>
    obtain ⟨b, w⟩ := c
    rw [wfFrom_cons] at h
    simp [Memory.read, show a < b by omega]

theorem wfFrom_put (h : Memory.wfFrom g (a + 1) m = true) (hl : lo ≤ a) (ha : a < memSize) :
    Memory.wfFrom g lo (Memory.put g a v m) = true := by
  unfold Memory.put
  split
  · exact wfFrom_mono h (by omega)
  · exact wfFrom_cons.2 ⟨hl, ha, ‹_›, h⟩

/-- A write keeps the canonical form. -/
theorem wfFrom_write (h : Memory.wfFrom g lo m = true) (hl : lo ≤ a) (ha : a < memSize) :
    Memory.wfFrom g lo (Memory.write g m a v) = true := by
  induction m generalizing lo with
  | nil => exact wfFrom_put rfl hl ha
  | cons c m ih =>
    obtain ⟨b, w⟩ := c
    rw [wfFrom_cons] at h
    unfold Memory.write
    split
    · exact wfFrom_put (wfFrom_cons.2 ⟨by omega, h.2⟩) hl ha
    · split
      · subst b; exact wfFrom_put h.2.2.2 hl ha
      · exact wfFrom_cons.2 ⟨h.1, h.2.1, h.2.2.1, ih h.2.2.2 (by omega)⟩

theorem read_put_same (h : Memory.wfFrom g (a + 1) m = true) : Memory.read g (Memory.put g a v m) a = v := by
  unfold Memory.put
  split
  · rw [read_below h (by omega)]; simp [*]
  · simp [Memory.read]

theorem read_put_ne (h : Memory.wfFrom g (a + 1) m = true) (hb : b ≠ a) :
    Memory.read g (Memory.put g a v m) b = Memory.read g m b := by
  unfold Memory.put
  split
  · rfl
  · simp only [Memory.read, if_neg hb]
    split
    · exact (read_below h (by omega)).symm
    · rfl

theorem read_write_same (h : Memory.wfFrom g lo m = true) : Memory.read g (Memory.write g m a v) a = v := by
  induction m generalizing lo with
  | nil => exact read_put_same rfl
  | cons c m ih =>
    obtain ⟨b, w⟩ := c
    rw [wfFrom_cons] at h
    unfold Memory.write
    split
    · exact read_put_same (wfFrom_cons.2 ⟨by omega, h.2⟩)
    · split
      · subst b; exact read_put_same h.2.2.2
      · simp [Memory.read, *, ih h.2.2.2]

theorem read_write_ne (h : Memory.wfFrom g lo m = true) (hb : b ≠ a) :
    Memory.read g (Memory.write g m a v) b = Memory.read g m b := by
  induction m generalizing lo with
  | nil => exact read_put_ne rfl hb
  | cons c m ih =>
    obtain ⟨d, w⟩ := c
    rw [wfFrom_cons] at h
    unfold Memory.write
    split
    · exact read_put_ne (wfFrom_cons.2 ⟨by omega, h.2⟩) hb
    · split
      · subst d
        rw [read_put_ne h.2.2.2 hb, Memory.read, if_neg hb]
        split
        · exact read_below h.2.2.2 (by omega)
        · rfl
      · simp only [Memory.read, ih h.2.2.2]

/-- The canonical form is canonical: two memories that read equal at every address are the same list. -/
theorem eq_of_read_eq {m' : Memory} (h : Memory.wfFrom g lo m = true) (h' : Memory.wfFrom g lo m' = true)
    (e : ∀ a, Memory.read g m a = Memory.read g m' a) : m = m' := by
  induction m generalizing m' lo with
  | nil =>
    cases m' with
    | nil => rfl
    | cons c m' => obtain ⟨b, w⟩ := c; exact absurd (by simpa [Memory.read] using (e b).symm) (wfFrom_cons.1 h').2.2.1
  | cons c m ih =>
    obtain ⟨a, v⟩ := c
    have ha := wfFrom_cons.1 h
    have hv : Memory.read g ((a, v) :: m) a = v := by simp [Memory.read]
    cases m' with
    | nil => exact absurd (hv.symm.trans (e a)) ha.2.2.1
    | cons d m' =>
      obtain ⟨b, w⟩ := d
      have hb := wfFrom_cons.1 h'
      have hw : Memory.read g ((b, w) :: m') b = w := by simp [Memory.read]
      have hab : a = b := by
        rcases Nat.lt_trichotomy a b with hl | hl | hl
        · exact absurd ((hv.symm.trans (e a)).trans (by simp [Memory.read, hl])) ha.2.2.1
        · exact hl
        · exact absurd ((hw.symm.trans (e b).symm).trans (by simp [Memory.read, hl])) hb.2.2.1
      subst b
      obtain rfl : v = w := hv.symm.trans ((e a).trans hw)
      rw [ih ha.2.2.2 hb.2.2.2 fun n => ?_]
      by_cases hn : n ≤ a
      · rw [read_below ha.2.2.2 (by omega), read_below hb.2.2.2 (by omega)]
      · have := e n
        simpa only [Memory.read, if_neg (show ¬ n < a by omega), if_neg (show ¬ n = a by omega)] using this

theorem physAddr_lt (a : Nat) : physAddr a < memSize := Nat.mod_lt _ (by decide)

variable {s t : State}

theorem memRead_congr (hm : t.mem = s.mem) (hc : t.cfg = s.cfg) (a : Nat) : t.memRead a = s.memRead a := by
  simp [State.memRead, hm, hc]

theorem memOk_memWrite (h : s.memOk) (a : Nat) (b : Byte) : (s.memWrite a b).memOk :=
  wfFrom_write h (Nat.zero_le _) (physAddr_lt a)

/-- `MemRead` after `MemWrite` at the same physical address. -/
theorem memRead_memWrite_same (h : s.memOk) {a n : Nat} {b : Byte} (hp : physAddr n = physAddr a) :
    (s.memWrite a b).memRead n = b := by
  simp only [State.memRead, memWrite_mem, memWrite_cfg, hp]; exact read_write_same h

/-- `MemRead` after `MemWrite` at another physical address. -/
theorem memRead_memWrite_ne (h : s.memOk) {a n : Nat} {b : Byte} (hp : physAddr n ≠ physAddr a) :
    (s.memWrite a b).memRead n = s.memRead n := by
  simp only [State.memRead, memWrite_mem, memWrite_cfg]; exact read_write_ne h hp

theorem memRead_memWrite (h : s.memOk) (a n : Nat) (b : Byte) :
    (s.memWrite a b).memRead n = if physAddr n = physAddr a then b else s.memRead n := by
  split
  · exact memRead_memWrite_same h ‹_›
  · exact memRead_memWrite_ne h ‹_›

theorem memOk_of_eq (h : s.memOk) (hm : t.mem = s.mem) (hc : t.cfg = s.cfg) : t.memOk := by
  simpa [State.memOk, hm, hc] using h

theorem memOk_resetWith (c : Config) : (State.resetWith c).memOk := rfl

theorem memOk_storeRegsUpTo (h : s.memOk) (n : Nat) : (s.storeRegsUpTo n).memOk := by
  induction n with
  | zero => exact h
  | succ n ih => exact memOk_memWrite ih _ _

theorem memOk_memWriteList (h : s.memOk) (a : Nat) (bs : List Byte) : (s.memWriteList a bs).memOk := by
  induction bs generalizing s a with
  | nil => exact h
  | cons b bs ih => exact ih (memOk_memWrite h a b) (a + 1)

theorem memRead_memWriteList_outside (h : s.memOk) (a : Nat) (bs : List Byte) (n : Nat)
    (hn : ∀ j, j < bs.length → physAddr n ≠ physAddr (a + j)) : (s.memWriteList a bs).memRead n = s.memRead n := by
  induction bs generalizing s a with
  | nil => rfl
  | cons b bs ih =>
    rw [State.memWriteList, ih (memOk_memWrite h a b) (a + 1), memRead_memWrite_ne h]
    · exact hn 0 (by simp)
    · intro j hj
      have := hn (j + 1) (by simpa using hj)
      rwa [show a + 1 + j = a + (j + 1) by omega]

/-- Byte `j` of a list written at `a`, when the list does not wrap onto itself. -/
theorem memRead_memWriteList (h : s.memOk) (a : Nat) (bs : List Byte) (hl : bs.length ≤ memSize) (j : Nat) (hj : j < bs.length) :
    (s.memWriteList a bs).memRead (a + j) = bs[j] := by
  induction bs generalizing s a j with
  | nil => simp at hj
  | cons b bs ih =>
    simp only [List.length_cons] at hl hj
    rw [State.memWriteList]
    cases j with
    | zero =>
      rw [memRead_memWriteList_outside (memOk_memWrite h a b) (a + 1)]
      · exact memRead_memWrite_same h rfl
      · intro j hj'; simp only [physAddr, memSize] at hl ⊢; omega
    | succ j =>
      rw [show a + (j + 1) = a + 1 + j by omega, ih (memOk_memWrite h a b) (a + 1) (by omega) j (by omega)]
      rfl

theorem memRead_storeRegsUpTo_outside (h : s.memOk) (n : Nat) (a : Nat)
    (ha : ∀ k, k < n → physAddr a ≠ physAddr (s.indexAddr k)) : (s.storeRegsUpTo n).memRead a = s.memRead a := by
  induction n with
  | zero => rfl
  | succ n ih =>
    have hi : (s.storeRegsUpTo n).indexAddr n = s.indexAddr n := by simp [State.indexAddr]
    rw [State.storeRegsUpTo, memRead_memWrite_ne (memOk_storeRegsUpTo h n) (by rw [hi]; exact ha n (by omega)),
      ih fun k hk => ha k (by omega)]

/-- Byte `k` of a register dump (R164). -/
theorem memRead_storeRegsUpTo (h : s.memOk) (n : Nat) (hn : n ≤ 16) (k : Nat) (hk : k < n) :
    (s.storeRegsUpTo n).memRead (s.indexAddr k) = s.readV (Fin.ofNat 16 k) := by
  induction n with
  | zero => omega
  | succ n ih =>
    have hi : (s.storeRegsUpTo n).indexAddr n = s.indexAddr n := by simp [State.indexAddr]
    rw [State.storeRegsUpTo]
    rcases Nat.lt_succ_iff_lt_or_eq.1 hk with hk | rfl
    · rw [memRead_memWrite_ne (memOk_storeRegsUpTo h n), ih (by omega) hk]
      rw [hi]; simp only [physAddr, State.indexAddr, memSize]; omega
    · rw [memRead_memWrite_same (memOk_storeRegsUpTo h k) (by rw [hi]), storeRegsUpTo_readV]

theorem readV_writeV_same (s : State) (r : Reg) (b : Byte) : (s.writeV r b).readV r = b := by
  simp [State.readV]

theorem readV_writeV_ne (s : State) {r q : Reg} (b : Byte) (h : q ≠ r) : (s.writeV r b).readV q = s.readV q := by
  have : r.val ≠ q.val := fun e => h (Fin.ext e.symm)
  simp [State.readV, Vector.getElem_set_ne _ _ this]

theorem readV_writeV (s : State) (r q : Reg) (b : Byte) : (s.writeV r b).readV q = if q = r then b else s.readV q := by
  split
  · subst q; exact readV_writeV_same s r b
  · exact readV_writeV_ne s b ‹_›

theorem readV_writeFlag (s : State) (q : Reg) (f : Bool) :
    (s.writeFlag f).readV q = if q = flagReg then flagByte f else s.readV q := readV_writeV s flagReg q _

/-- Register `q` after a register load of `n` registers (R165). -/
theorem readV_loadRegsUpTo (s : State) (n : Nat) (hn : n ≤ 16) (q : Reg) :
    (s.loadRegsUpTo n).readV q = if q.val < n then s.memRead (s.indexAddr q.val) else s.readV q := by
  induction n with
  | zero => simp [State.loadRegsUpTo]
  | succ n ih =>
    rw [State.loadRegsUpTo, readV_writeV, ih (by omega)]
    have hq : q = Fin.ofNat 16 n ↔ q.val = n := by
      rw [Fin.ext_iff]; simp only [Fin.ofNat, Nat.mod_eq_of_lt (show n < 16 by omega)]
    simp only [hq, loadRegsUpTo_memRead]
    split
    · simp [State.indexAddr, *]
    · split <;> split <;> first | rfl | omega

/-- Two states with the same registers, read register by register. -/
theorem v_ext (h : ∀ q, t.readV q = s.readV q) : t.v = s.v := by
  ext k hk : 1
  exact h ⟨k, hk⟩

end Sys2Proof.Machine
end

