-- ==== Sys2Proof/Laws/Display.lean ====
section
/-! SUPPORT. The display: cells after an update, and what a whole sprite does to a grid. -/

namespace Sys2Proof.Machine

theorem cell_setCell (g : Grid) (r r' : Fin 32) (c c' : Fin 64) (b : Bool) :
    (g.setCell r c b).cell r' c' = if r = r' ∧ c = c' then b else g.cell r' c' := by
  simp only [Grid.cell, Grid.setCell, Fin.getElem_fin, Vector.getElem_set, Fin.ext_iff]
  by_cases hr : r.val = r'.val
  · by_cases hc : c.val = c'.val <;> simp [hr, hc]
  · simp [hr]

@[simp] theorem cell_blank (r : Fin 32) (c : Fin 64) : Grid.blank.cell r c = false := by
  simp [Grid.cell, Grid.blank]

theorem grid_ext {g h : Grid} (e : ∀ r c, g.cell r c = h.cell r c) : g = h := by
  ext r hr c hc
  exact e ⟨r, hr⟩ ⟨c, hc⟩

/-- Two bits of a sprite byte land on different columns (R187). -/
theorem spriteCol_inj {ox j k : Nat} (hj : j < 8) (hk : k < 8) (h : spriteCol ox j = spriteCol ox k) : j = k := by
  simp only [spriteCol, Fin.ofNat, Fin.mk.injEq] at h; omega

/-- Two rows of a sprite at most 32 high land on different rows (R187). -/
theorem spriteRow_inj {oy i j : Nat} (h : spriteRow oy i = spriteRow oy j) (hij : i < j) : 32 ≤ j - i := by
  simp only [spriteRow, Fin.ofNat, Fin.mk.injEq] at h; omega

/-- A 1-bit among the `n` lowest bits of `b`, drawn on a row from column `ox`, lands on column `c`. -/
def byteCovers (ox : Nat) (b : Byte) (n : Nat) (c : Fin 64) : Prop := ∃ k, k < n ∧ spriteCol ox k = c ∧ b.getLsbD k = true

/-- A 1-bit of the sprite lands on the cell (R182), for a sprite whose first byte is its row `first`. -/
def rowsCover (ox oy first : Nat) (bs : List Byte) (r : Fin 32) (c : Fin 64) : Prop :=
  ∃ i, ∃ h : i < bs.length, spriteRow oy (first + i) = r ∧ byteCovers ox bs[i] 8 c

theorem byteCovers_succ (ox : Nat) (b : Byte) (n : Nat) (c : Fin 64) :
    byteCovers ox b (n + 1) c ↔ byteCovers ox b n c ∨ (spriteCol ox n = c ∧ b.getLsbD n = true) := by
  constructor
  · rintro ⟨k, hk, h⟩
    rcases Nat.lt_succ_iff_lt_or_eq.1 hk with hk | rfl
    exacts [.inl ⟨k, hk, h⟩, .inr h]
  · rintro (⟨k, hk, h⟩ | h)
    exacts [⟨k, by omega, h⟩, ⟨n, by omega, h⟩]

theorem rowsCover_cons (ox oy first : Nat) (b : Byte) (bs : List Byte) (r : Fin 32) (c : Fin 64) :
    rowsCover ox oy first (b :: bs) r c ↔
      (spriteRow oy first = r ∧ byteCovers ox b 8 c) ∨ rowsCover ox oy (first + 1) bs r c := by
  constructor
  · rintro ⟨i, h, hr, hc⟩
    cases i with
    | zero => exact .inl ⟨hr, hc⟩
    | succ i => exact .inr ⟨i, by simpa using h, by rwa [show first + 1 + i = first + (i + 1) by omega], hc⟩
  · rintro (⟨hr, hc⟩ | ⟨i, h, hr, hc⟩)
    · exact ⟨0, by simp, hr, hc⟩
    · exact ⟨i + 1, by simpa using h, by rwa [show first + (i + 1) = first + 1 + i by omega], hc⟩

open Classical in
/-- One sprite byte inverts exactly the cells its 1-bits land on. -/
theorem cell_drawBits (cv : Canvas) (ox : Nat) (r : Fin 32) (b : Byte) (n : Nat) (hn : n ≤ 8) (r' : Fin 32) (c : Fin 64) :
    (cv.drawBits ox r b n).grid.cell r' c = (cv.grid.cell r' c ^^ decide (r = r' ∧ byteCovers ox b n c)) := by
  induction n with
  | zero => simp [Canvas.drawBits, byteCovers]
  | succ n ih =>
    have hfree : ¬ byteCovers ox b n (spriteCol ox n) := by
      rintro ⟨k, hk, h, -⟩; have := spriteCol_inj (by omega) (by omega) h; omega
    simp only [Canvas.drawBits, Canvas.drawBit, cell_setCell, ih (by omega), byteCovers_succ]
    by_cases hr : r = r'
    · by_cases hc : spriteCol ox n = c
      · subst hr hc; simp [hfree, ih (by omega)]
      · simp [hr, hc]
    · simp [hr]

open Classical in
/-- One sprite byte records an erasure exactly when a 1-bit lands on a cell that was 1. -/
theorem erased_drawBits (cv : Canvas) (ox : Nat) (r : Fin 32) (b : Byte) (n : Nat) (hn : n ≤ 8) :
    (cv.drawBits ox r b n).erased = (cv.erased || decide (∃ c, cv.grid.cell r c = true ∧ byteCovers ox b n c)) := by
  induction n with
  | zero => simp [Canvas.drawBits, byteCovers]
  | succ n ih =>
    have hfree : ¬ byteCovers ox b n (spriteCol ox n) := by
      rintro ⟨k, hk, h, -⟩; have := spriteCol_inj (by omega) (by omega) h; omega
    simp only [Canvas.drawBits, Canvas.drawBit, cell_drawBits cv ox r b n (by omega), ih (by omega), byteCovers_succ, hfree,
      and_false, decide_false, Bool.xor_false, Bool.or_assoc]
    congr 1
    rw [Bool.eq_iff_iff]
    simp only [Bool.or_eq_true, decide_eq_true_eq, Bool.and_eq_true]
    constructor
    · rintro (⟨c, h, hc⟩ | ⟨h, hb⟩)
      exacts [⟨c, h, .inl hc⟩, ⟨_, h, .inr ⟨rfl, hb⟩⟩]
    · rintro ⟨c, h, hc | ⟨rfl, hb⟩⟩
      exacts [.inl ⟨c, h, hc⟩, .inr ⟨h, hb⟩]

open Classical in
/-- A sprite of at most 32 rows inverts exactly the cells its 1-bits land on, and records an erasure exactly when one of them was 1
(R182, R184). -/
theorem drawRows_spec (bs : List Byte) (cv : Canvas) (ox oy first : Nat) (hl : bs.length ≤ 32) :
    (∀ r c, (cv.drawRows ox oy first bs).grid.cell r c = (cv.grid.cell r c ^^ decide (rowsCover ox oy first bs r c))) ∧
    (cv.drawRows ox oy first bs).erased =
      (cv.erased || decide (∃ r c, cv.grid.cell r c = true ∧ rowsCover ox oy first bs r c)) := by
  induction bs generalizing cv first with
  | nil => simp [Canvas.drawRows, rowsCover]
  | cons b bs ih =>
    simp only [List.length_cons] at hl
    have hfree : ∀ c, ¬ rowsCover ox oy (first + 1) bs (spriteRow oy first) c := by
      rintro c ⟨i, h, hr, -⟩
      have := spriteRow_inj hr.symm (by omega)
      omega
    obtain ⟨hg, he⟩ := ih (cv.drawBits ox (spriteRow oy first) b 8) (first + 1) (by omega)
    have hcell : ∀ r c, (cv.drawBits ox (spriteRow oy first) b 8).grid.cell r c = true ∧ rowsCover ox oy (first + 1) bs r c ↔
        cv.grid.cell r c = true ∧ rowsCover ox oy (first + 1) bs r c := by
      intro r c
      refine and_congr_left fun hc => ?_
      have : spriteRow oy first ≠ r := by rintro rfl; exact hfree c hc
      simp [cell_drawBits _ _ _ _ 8 le_rfl, this]
    constructor
    · intro r c
      rw [Canvas.drawRows, hg, cell_drawBits _ _ _ _ 8 le_rfl, Bool.xor_assoc]
      congr 1
      simp only [rowsCover_cons]
      by_cases h : spriteRow oy first = r
      · subst h; simp [hfree]
      · simp [h]
    · rw [Canvas.drawRows, he, erased_drawBits _ _ _ _ 8 le_rfl, Bool.or_assoc]
      refine congrArg (cv.erased || ·) ?_
      simp only [hcell, rowsCover_cons]
      rw [Bool.eq_iff_iff]
      simp only [Bool.or_eq_true, decide_eq_true_eq]
      constructor
      · rintro (⟨c, h, hc⟩ | ⟨r, c, h, hc⟩)
        exacts [⟨_, c, h, .inl ⟨rfl, hc⟩⟩, ⟨r, c, h, .inr hc⟩]
      · rintro ⟨r, c, h, ⟨rfl, hc⟩ | hc⟩
        exacts [.inl ⟨c, h, hc⟩, .inr ⟨r, c, h, hc⟩]

@[simp] theorem spriteBytes_length (s : State) (n : Nat) : (s.spriteBytes n).length = n := by simp [State.spriteBytes]

theorem spriteBytes_getElem (s : State) (n i : Nat) (h : i < (s.spriteBytes n).length) :
    (s.spriteBytes n)[i] = s.memRead (s.indexAddr i) := by simp [State.spriteBytes]

/-- What the display's terms say of a sprite is what its bytes do. -/
theorem rowsCover_iff_spriteCovers (s : State) (x y : Reg) (n : Nibble) (r : Fin 32) (c : Fin 64) :
    rowsCover (s.readV x).toNat (s.readV y).toNat 0 (s.spriteBytes n.toNat) r c ↔ spriteCovers s x y n r c := by
  unfold rowsCover byteCovers spriteCovers
  constructor
  · rintro ⟨i, h, hr, k, hk, hc, hb⟩
    refine ⟨i, k, by simpa using h, hk, ?_, ?_, by simpa [State.spriteBytes, State.indexAddr] using hb⟩
    · rw [← hr]; simp [spriteRow, Fin.ofNat]
    · rw [← hc]; simp [spriteCol, Fin.ofNat]
  · rintro ⟨i, k, h, hk, hr, hc, hb⟩
    refine ⟨i, by simpa using h, Fin.ext (by simpa [spriteRow, Fin.ofNat] using hr), k, hk,
      Fin.ext (by simpa [spriteCol, Fin.ofNat] using hc), by simpa [State.spriteBytes, State.indexAddr] using hb⟩

end Sys2Proof.Machine
end

