-- ==== Sys2Proof/Laws/PerInstr.lean ====
section
/-! SUPPORT. Per instruction: its encoding lies in its row of the opcode table. -/

namespace Sys2Proof.Laws.TableRow

/-- The encoding of a well-formed instruction agrees with its row's match under its row's mask. -/
def Statement (i : Instr) : Prop := i.wf = true → encode i &&& i.row.mask = i.row.value

/-- Bits of a word of format `NNN` under the mask of its type. -/
theorem mask_NNN (t : Nibble) (nnn : Addr) : wordNNN t nnn &&& 0xF000 = wordNNN t 0 := by
  apply BitVec.eq_of_getLsbD_eq
  intro i hi
  simp only [wordNNN, BitVec.getLsbD_and, BitVec.getLsbD_append]
  interval_cases i <;> simp

theorem mask_XKK (t : Nibble) (x : Reg) (kk : Byte) : wordXKK t x kk &&& 0xF000 = wordNNN t 0 := mask_NNN t _

theorem mask_XYN (t : Nibble) (x y : Reg) (n : Nibble) : wordXYN t x y n &&& 0xF000 = wordNNN t 0 := mask_NNN t _

/-- Bits of a word with a fixed `kk` under the mask of type and `kk`. -/
theorem mask_X (t : Nibble) (x : Reg) (kk : Byte) : wordXKK t x kk &&& 0xF0FF = wordXKK t 0 kk := by
  apply BitVec.eq_of_getLsbD_eq
  intro i hi
  simp only [wordXKK, bitsOfReg, BitVec.getLsbD_and, BitVec.getLsbD_append]
  interval_cases i <;> simp

/-- Bits of a word with a fixed `n` under the mask of type and `n`. -/
theorem mask_XY (t : Nibble) (x y : Reg) (n : Nibble) : wordXYN t x y n &&& 0xF00F = wordXYN t 0 0 n := by
  apply BitVec.eq_of_getLsbD_eq
  intro i hi
  simp only [wordXYN, bitsOfReg, BitVec.getLsbD_and, BitVec.getLsbD_append]
  interval_cases i <;> simp

theorem sys (nnn : Addr) : Statement (.sys nnn) := fun _ => (mask_NNN _ _).trans rfl
theorem cls : Statement (.cls) := fun _ => by decide
theorem ret : Statement (.ret) := fun _ => by decide
theorem jp (nnn : Addr) : Statement (.jp nnn) := fun _ => (mask_NNN _ _).trans rfl
theorem call (nnn : Addr) : Statement (.call nnn) := fun _ => (mask_NNN _ _).trans rfl
theorem seImm (x : Reg) (kk : Byte) : Statement (.seImm x kk) := fun _ => (mask_XKK _ _ _).trans rfl
theorem sneImm (x : Reg) (kk : Byte) : Statement (.sneImm x kk) := fun _ => (mask_XKK _ _ _).trans rfl
theorem seReg (x y : Reg) : Statement (.seReg x y) := fun _ => (mask_XYN _ _ _ _).trans rfl
theorem ldImm (x : Reg) (kk : Byte) : Statement (.ldImm x kk) := fun _ => (mask_XKK _ _ _).trans rfl
theorem addImm (x : Reg) (kk : Byte) : Statement (.addImm x kk) := fun _ => (mask_XKK _ _ _).trans rfl
theorem ldReg (x y : Reg) : Statement (.ldReg x y) := fun _ => (mask_XY _ _ _ _).trans rfl
theorem orReg (x y : Reg) : Statement (.orReg x y) := fun _ => (mask_XY _ _ _ _).trans rfl
theorem andReg (x y : Reg) : Statement (.andReg x y) := fun _ => (mask_XY _ _ _ _).trans rfl
theorem xorReg (x y : Reg) : Statement (.xorReg x y) := fun _ => (mask_XY _ _ _ _).trans rfl
theorem addReg (x y : Reg) : Statement (.addReg x y) := fun _ => (mask_XY _ _ _ _).trans rfl
theorem sub (x y : Reg) : Statement (.sub x y) := fun _ => (mask_XY _ _ _ _).trans rfl
theorem shr (x : Reg) : Statement (.shr x) := fun _ => (mask_XY _ _ _ _).trans rfl
theorem subn (x y : Reg) : Statement (.subn x y) := fun _ => (mask_XY _ _ _ _).trans rfl
theorem shl (x : Reg) : Statement (.shl x) := fun _ => (mask_XY _ _ _ _).trans rfl
theorem sneReg (x y : Reg) : Statement (.sneReg x y) := fun _ => (mask_XYN _ _ _ _).trans rfl
theorem ldI (nnn : Addr) : Statement (.ldI nnn) := fun _ => (mask_NNN _ _).trans rfl
theorem jpV0 (nnn : Addr) : Statement (.jpV0 nnn) := fun _ => (mask_NNN _ _).trans rfl
theorem rnd (x : Reg) (kk : Byte) : Statement (.rnd x kk) := fun _ => (mask_XKK _ _ _).trans rfl
theorem drw (x y : Reg) (n : Nibble) : Statement (.drw x y n) := fun _ => (mask_XYN _ _ _ _).trans rfl
theorem skp (x : Reg) : Statement (.skp x) := fun _ => (mask_X _ _ _).trans rfl
theorem sknp (x : Reg) : Statement (.sknp x) := fun _ => (mask_X _ _ _).trans rfl
theorem ldVxDt (x : Reg) : Statement (.ldVxDt x) := fun _ => (mask_X _ _ _).trans rfl
theorem ldVxK (x : Reg) : Statement (.ldVxK x) := fun _ => (mask_X _ _ _).trans rfl
theorem ldDtVx (x : Reg) : Statement (.ldDtVx x) := fun _ => (mask_X _ _ _).trans rfl
theorem ldStVx (x : Reg) : Statement (.ldStVx x) := fun _ => (mask_X _ _ _).trans rfl
theorem addI (x : Reg) : Statement (.addI x) := fun _ => (mask_X _ _ _).trans rfl
theorem ldF (x : Reg) : Statement (.ldF x) := fun _ => (mask_X _ _ _).trans rfl
theorem ldB (x : Reg) : Statement (.ldB x) := fun _ => (mask_X _ _ _).trans rfl
theorem storeRegs (x : Reg) : Statement (.storeRegs x) := fun _ => (mask_X _ _ _).trans rfl
theorem loadRegs (x : Reg) : Statement (.loadRegs x) := fun _ => (mask_X _ _ _).trans rfl

end Sys2Proof.Laws.TableRow
end

