-- ==== Sys2Proof/Laws/Step.lean ====
section
/-! SUPPORT. What the shared operations of the scheduler and the host can do, each said once. -/

namespace Sys2Proof.Machine

variable {s t : State}

theorem fetch_congr (hm : t.mem = s.mem) (hc : t.cfg = s.cfg) (hp : t.pc = s.pc) : t.fetch = s.fetch := by
  simp [State.fetch, hp, memRead_congr hm hc]

/-- A key skip consumes one snapshot and skips or advances by it, or signals the failure (R200, R201, R226). -/
theorem skipOnKey_cases (s : State) (w : Word) (k : Key) (want : Bool) :
    (∃ keys, s.nextSample = .held keys ∧ s.skipOnKey w k want = s.dropSample.skipIf (keys.contains k == want)) ∨
    (s.nextSample = .failure ∧ s.skipOnKey w k want = s.dropSample.signalInputFailure w) := by
  unfold State.skipOnKey
  split
  exacts [.inl ⟨_, ‹_›, rfl⟩, .inr ⟨‹_›, rfl⟩]

@[simp] theorem skipOnKey_v (w : Word) (k : Key) (want : Bool) : (s.skipOnKey w k want).v = s.v := by
  rcases skipOnKey_cases s w k want with ⟨_, _, h⟩ | ⟨_, h⟩ <;> simp [h]
@[simp] theorem skipOnKey_i (w : Word) (k : Key) (want : Bool) : (s.skipOnKey w k want).i = s.i := by
  rcases skipOnKey_cases s w k want with ⟨_, _, h⟩ | ⟨_, h⟩ <;> simp [h]
@[simp] theorem skipOnKey_stack (w : Word) (k : Key) (want : Bool) : (s.skipOnKey w k want).stack = s.stack := by
  rcases skipOnKey_cases s w k want with ⟨_, _, h⟩ | ⟨_, h⟩ <;> simp [h]
@[simp] theorem skipOnKey_sp (w : Word) (k : Key) (want : Bool) : (s.skipOnKey w k want).sp = s.sp := by
  rcases skipOnKey_cases s w k want with ⟨_, _, h⟩ | ⟨_, h⟩ <;> simp [h]
@[simp] theorem skipOnKey_dt (w : Word) (k : Key) (want : Bool) : (s.skipOnKey w k want).dt = s.dt := by
  rcases skipOnKey_cases s w k want with ⟨_, _, h⟩ | ⟨_, h⟩ <;> simp [h]
@[simp] theorem skipOnKey_st (w : Word) (k : Key) (want : Bool) : (s.skipOnKey w k want).st = s.st := by
  rcases skipOnKey_cases s w k want with ⟨_, _, h⟩ | ⟨_, h⟩ <;> simp [h]
@[simp] theorem skipOnKey_accI (w : Word) (k : Key) (want : Bool) : (s.skipOnKey w k want).accI = s.accI := by
  rcases skipOnKey_cases s w k want with ⟨_, _, h⟩ | ⟨_, h⟩ <;> simp [h]
@[simp] theorem skipOnKey_accT (w : Word) (k : Key) (want : Bool) : (s.skipOnKey w k want).accT = s.accT := by
  rcases skipOnKey_cases s w k want with ⟨_, _, h⟩ | ⟨_, h⟩ <;> simp [h]
@[simp] theorem skipOnKey_disp (w : Word) (k : Key) (want : Bool) : (s.skipOnKey w k want).disp = s.disp := by
  rcases skipOnKey_cases s w k want with ⟨_, _, h⟩ | ⟨_, h⟩ <;> simp [h]
@[simp] theorem skipOnKey_prev (w : Word) (k : Key) (want : Bool) : (s.skipOnKey w k want).prev = s.prev := by
  rcases skipOnKey_cases s w k want with ⟨_, _, h⟩ | ⟨_, h⟩ <;> simp [h]
@[simp] theorem skipOnKey_dirty (w : Word) (k : Key) (want : Bool) : (s.skipOnKey w k want).dirty = s.dirty := by
  rcases skipOnKey_cases s w k want with ⟨_, _, h⟩ | ⟨_, h⟩ <;> simp [h]
@[simp] theorem skipOnKey_status (w : Word) (k : Key) (want : Bool) : (s.skipOnKey w k want).status = s.status := by
  rcases skipOnKey_cases s w k want with ⟨_, _, h⟩ | ⟨_, h⟩ <;> simp [h]
@[simp] theorem skipOnKey_mem (w : Word) (k : Key) (want : Bool) : (s.skipOnKey w k want).mem = s.mem := by
  rcases skipOnKey_cases s w k want with ⟨_, _, h⟩ | ⟨_, h⟩ <;> simp [h]
@[simp] theorem skipOnKey_cfg (w : Word) (k : Key) (want : Bool) : (s.skipOnKey w k want).cfg = s.cfg := by
  rcases skipOnKey_cases s w k want with ⟨_, _, h⟩ | ⟨_, h⟩ <;> simp [h]
@[simp] theorem skipOnKey_loadable (w : Word) (k : Key) (want : Bool) : (s.skipOnKey w k want).loadable = s.loadable := by
  rcases skipOnKey_cases s w k want with ⟨_, _, h⟩ | ⟨_, h⟩ <;> simp [h]
@[simp] theorem skipOnKey_actions (w : Word) (k : Key) (want : Bool) : (s.skipOnKey w k want).actions = s.actions := by
  rcases skipOnKey_cases s w k want with ⟨_, _, h⟩ | ⟨_, h⟩ <;> simp [h]
@[simp] theorem skipOnKey_randoms (w : Word) (k : Key) (want : Bool) : (s.skipOnKey w k want).randoms = s.randoms := by
  rcases skipOnKey_cases s w k want with ⟨_, _, h⟩ | ⟨_, h⟩ <;> simp [h]

/-- A register dump changes memory only. -/
theorem storeRegsUpTo_eq (s : State) (n : Nat) : s.storeRegsUpTo n = { s with mem := (s.storeRegsUpTo n).mem } := by
  induction n with
  | zero => rfl
  | succ n ih => rw [State.storeRegsUpTo, ih]; rfl

/-- A register load changes registers only. -/
theorem loadRegsUpTo_eq (s : State) (n : Nat) : s.loadRegsUpTo n = { s with v := (s.loadRegsUpTo n).v } := by
  induction n with
  | zero => rfl
  | succ n ih => rw [State.loadRegsUpTo, ih]; rfl

/-- `ExecuteOne()` performs the decoded instruction or takes the decode error (R85). -/
theorem executeOne_cases (h : s.executeOne = .next t) :
    (∃ i, decode s.fetch = .instr i ∧ exec i s = .next t) ∨
    (∃ why, decode s.fetch = .illegal why ∧ t = s.raise (.decodeError s.fetch s.pc)) := by
  unfold State.executeOne at h
  split at h
  · exact .inl ⟨_, ‹_›, h⟩
  · exact .inr ⟨_, ‹_›, by simpa using h.symm⟩

/-- The four ways a step goes on after its instruction (R227, R246, R226, R241). -/
theorem afterInstruction_cases (u : State) :
    (∃ e, u.status = .halted e ∧ u.afterInstruction = { u with report := .error e }) ∨
    (∃ x, u.status = .waiting x ∧ u.afterInstruction = { u with report := .suspended }) ∨
    (u.status = .running ∧ (∃ w p, u.report = .inputFailure w p) ∧ u.afterInstruction = u) ∨
    (u.status = .running ∧ (∀ w p, u.report ≠ .inputFailure w p) ∧ u.afterInstruction = u.completeStep) := by
  unfold State.afterInstruction
  split
  · exact .inl ⟨_, ‹_›, rfl⟩
  · exact .inr (.inl ⟨_, ‹_›, rfl⟩)
  · split
    · exact .inr (.inr (.inl ⟨‹_›, ⟨_, _, ‹_›⟩, rfl⟩))
    · exact .inr (.inr (.inr ⟨‹_›, by assumption, rfl⟩))

/-- A scheduler step executes exactly one instruction if `ACC_I` is 0, and none if it is not (R241). -/
theorem schedStep_cases (h : s.schedStep = .next t) :
    (s.accI = 0 ∧ ∃ u, s.beginStep.executeOne = .next u ∧ t = u.afterInstruction) ∨
    (s.accI ≠ 0 ∧ t = s.beginStep.timerEvent.sleepUntilNext) := by
  by_cases hz : s.accI = 0
  · simp only [State.schedStep, beginStep_accI, hz, if_true] at h
    split at h
    · exact .inl ⟨hz, _, ‹_›, by simpa using h.symm⟩
    all_goals simp at h
  · simp only [State.schedStep, beginStep_accI, hz, if_false] at h
    exact .inr ⟨hz, by simpa using h.symm⟩

/-! ### `completeStep`: the accumulators after a completed step (R241) -/

@[simp] theorem completeStep_accI (u : State) : u.completeStep.accI =
    periodI u.cfg - min (periodI u.cfg) (if u.accT = 0 then periodT u.cfg else u.accT) := by simp [State.completeStep]

@[simp] theorem completeStep_accT (u : State) : u.completeStep.accT =
    (if u.accT = 0 then periodT u.cfg else u.accT) - min (periodI u.cfg) (if u.accT = 0 then periodT u.cfg else u.accT) := by
  simp [State.completeStep]

@[simp] theorem completeStep_report (u : State) : u.completeStep.report =
    .sleep (min (periodI u.cfg) (if u.accT = 0 then periodT u.cfg else u.accT)) := by simp [State.completeStep]

@[simp] theorem completeStep_dt (u : State) : u.completeStep.dt = if u.accT = 0 then decayByte u.dt else u.dt := by
  simp [State.completeStep]

@[simp] theorem completeStep_st (u : State) : u.completeStep.st = if u.accT = 0 then decayByte u.st else u.st := by
  simp [State.completeStep]

@[simp] theorem completeStep_v (u : State) : u.completeStep.v = u.v := by simp [State.completeStep]
@[simp] theorem completeStep_i (u : State) : u.completeStep.i = u.i := by simp [State.completeStep]
@[simp] theorem completeStep_pc (u : State) : u.completeStep.pc = u.pc := by simp [State.completeStep]
@[simp] theorem completeStep_stack (u : State) : u.completeStep.stack = u.stack := by simp [State.completeStep]
@[simp] theorem completeStep_sp (u : State) : u.completeStep.sp = u.sp := by simp [State.completeStep]
@[simp] theorem completeStep_disp (u : State) : u.completeStep.disp = u.disp := by simp [State.completeStep]
@[simp] theorem completeStep_prev (u : State) : u.completeStep.prev = u.prev := by simp [State.completeStep]
@[simp] theorem completeStep_dirty (u : State) : u.completeStep.dirty = u.dirty := by simp [State.completeStep]
@[simp] theorem completeStep_status (u : State) : u.completeStep.status = u.status := by simp [State.completeStep]
@[simp] theorem completeStep_mem (u : State) : u.completeStep.mem = u.mem := by simp [State.completeStep]
@[simp] theorem completeStep_cfg (u : State) : u.completeStep.cfg = u.cfg := by simp [State.completeStep]

/-- A completed step: the timers, the accumulators and the report, and nothing else (R241). -/
theorem completeStep_eq (u : State) : u.completeStep = { u with
    dt := u.completeStep.dt, st := u.completeStep.st, accI := u.completeStep.accI, accT := u.completeStep.accT,
    report := u.completeStep.report } := by
  by_cases h : u.accT = 0 <;> simp [State.completeStep, State.timerEvent, h, State.sleepUntilNext, State.timerDecay]

/-! ### Key events and turns -/

/-- A key event does something only to a suspended step (R246, R253). -/
theorem keyEvent_cases (s : State) (e : KeyEvent) :
    (∃ x k, s.status = .waiting x ∧ e = .press k ∧ s.keyEvent e = s.deliverKey x k) ∨
    (∃ x, s.status = .waiting x ∧ e = .failure ∧ s.keyEvent e = s.abandonWait x) ∨
    ((∀ x, s.status ≠ .waiting x) ∧ s.keyEvent e = s) := by
  unfold State.keyEvent
  split
  · cases e with
    | press k => exact .inl ⟨_, k, ‹_›, rfl, rfl⟩
    | failure => exact .inr (.inl ⟨_, ‹_›, rfl, rfl⟩)
  · exact .inr (.inr ⟨by assumption, rfl⟩)

/-- A turn of a key wait with no action listed: a free value drawn, and perhaps a key event. -/
theorem waitTurn_cases (s : State) :
    s.waitTurn = { s with draws := s.draws + 1 } ∨
    ∃ e, s.waitTurn = State.keyEvent { s with draws := s.draws + 1 } e := by
  unfold State.waitTurn
  simp only
  split
  · exact .inl rfl
  · exact .inr ⟨_, rfl⟩

/-- An initialisation, where it is admitted, sets the one element (R264, D25; log 24). -/
theorem initialise_cases {w : HostWrite} (h : s.initialise w = .next t) :
    s.status = .running ∧ s.report = .idle ∧ w.inRange s.cfg = true ∧ t = s.applyHostWrite w := by
  unfold State.initialise at h
  split at h
  · split at h
    · exact ⟨‹_›, ‹_›, ‹_›, by simpa using h.symm⟩
    · simp at h
  · simp at h

/-- And it is admitted in a running machine of which no step has returned, for a value in range. -/
theorem initialise_next {w : HostWrite} (hs : s.status = .running) (hr : s.report = .idle) (hw : w.inRange s.cfg = true) :
    s.initialise w = .next (s.applyHostWrite w) := by
  unfold State.initialise
  split
  · rw [if_pos hw]
  · exact absurd hr (by simp_all)

/-- What the host sets is the machine's: never a parameter, a report, or the host's own actions and answers. -/
theorem applyHostWrite_frame (s : State) (w : HostWrite) :
    (s.applyHostWrite w).cfg = s.cfg ∧ (s.applyHostWrite w).report = s.report ∧ (s.applyHostWrite w).actions = s.actions ∧
    (s.applyHostWrite w).randoms = s.randoms ∧ (s.applyHostWrite w).samples = s.samples ∧ (s.applyHostWrite w).draws = s.draws := by
  cases w <;> exact ⟨rfl, rfl, rfl, rfl, rfl, rfl⟩

theorem memOk_applyHostWrite (h : s.memOk) (w : HostWrite) : (s.applyHostWrite w).memOk := by
  cases w
  case mem a b => exact memOk_memWrite h a b
  all_goals exact h

/-- What one step can be: the oldest listed action, a turn of a wait, or `Step()`. -/
theorem step_cases (h : step s = .next t) :
    (∃ a rest, s.actions = a :: rest ∧ State.act { s with actions := rest } a = .next t) ∨
    (s.actions = [] ∧ (∃ x, s.status = .waiting x) ∧ t = s.waitTurn) ∨
    (s.actions = [] ∧ s.status = .running ∧ s.schedStep = .next t) := by
  unfold step State.turn at h
  split at h
  · exact .inl ⟨_, _, ‹_›, h⟩
  · unfold State.freeTurn at h
    split at h
    · exact .inr (.inl ⟨‹_›, ⟨_, ‹_›⟩, by simpa using h.symm⟩)
    · unfold State.hostStep at h
      split at h
      · exact .inr (.inr ⟨‹_›, ‹_›, h⟩)
      · simp_all
      · simp at h

/-- The oldest listed action is what the next step does (R250). -/
theorem step_action {a : HostAction} {rest : List HostAction} (h : s.actions = a :: rest) :
    step s = State.act { s with actions := rest } a := by
  unfold step State.turn
  split
  · rename_i h'; rw [h] at h'; obtain ⟨rfl, rfl⟩ := List.cons.inj h'; rfl
  · simp_all

/-- With no action listed, a running machine takes a scheduler step (R241; log 9). -/
theorem step_running (h : s.actions = []) (hr : s.status = .running) : step s = s.schedStep := by
  simp [step, State.turn, h, State.freeTurn, hr, State.hostStep]

/-- The placed instruction is what the next fetch reads. -/
theorem fetch_placeInstruction (h : s.memOk) (w : Word) : (s.placeInstruction w).fetch = w := by
  have hm : ∀ n, (s.placeInstruction w).memRead n =
      ((s.memWrite s.pc.toNat (bytesOfWord w).1).memWrite (s.pc.toNat + 1) (bytesOfWord w).2).memRead n := fun _ => rfl
  have h0 : (s.placeInstruction w).memRead s.pc.toNat = (bytesOfWord w).1 := by
    rw [hm, memRead_memWrite_ne (memOk_memWrite h _ _) (by simp only [physAddr, memSize]; omega), memRead_memWrite_same h rfl]
  have h1 : (s.placeInstruction w).memRead (s.pc.toNat + 1) = (bytesOfWord w).2 := by
    rw [hm, memRead_memWrite_same (memOk_memWrite h _ _) rfl]
  have hp : (s.placeInstruction w).pc = s.pc := rfl
  rw [State.fetch, hp, h0, h1, wordOfBytes_bytesOfWord]

/-! ### The periods (R240) -/

theorem periods_of_valid {c : Config} (h : c.valid = true) : 1 ≤ periodI c ∧ periodI c ≤ periodT c := by
  simp only [Config.valid, Bool.and_eq_true, decide_eq_true_eq] at h
  obtain ⟨⟨⟨-, h1⟩, h2⟩, h3⟩ := h
  exact ⟨(Nat.le_div_iff_mul_le (by omega)).2 (by omega), Nat.div_le_div_left (by omega) h1⟩

end Sys2Proof.Machine
end

