-- ==== Sys2Proof/Tests/Slice0.lean ====
section
/-! SUPPORT. Tests: expected values are those of `spec/95_test_vectors.md` (the vector is named beside each), and a witness of the hypotheses of
every statement that has some. -/

namespace Sys2Proof.Tests

open Sys2Proof Sys2Proof.Machine

/-! ### Helpers -/

/-- The state after `ExecuteOne` of the word placed at `pc` (the convention of `95_test_vectors.md`). -/
def one (s : State) (w : Word) : Option State :=
  match (s.placeInstruction w).executeOne with
  | .next t => some t
  | _ => none

/-- A field of the state after that. -/
def oneOf {α : Type} (s : State) (w : Word) (f : State → α) : Option α := (one s w).map f

/-- A field of the state after one step. -/
def stepOf {α : Type} (s : State) (f : State → α) : Option α :=
  match step s with
  | .next t => some (f t)
  | _ => none

/-- Reset with some registers set. -/
def withV (rs : List (Reg × Byte)) : State := rs.foldl (fun s r => s.writeV r.1 r.2) State.reset

/-- The two registers an instruction leaves, the second of them the flag register. -/
def vAndFlag (x : Reg) (s : State) : Byte × Byte := (s.readV x, s.readV flagReg)

/-- Reset with `I` and bytes there. -/
def withBytes (i : Word) (bs : List Byte) : State := (State.reset.writeI i).memWriteList i.toNat bs

/-- A halted machine. -/
def halted : State := { State.reset with status := .halted (.decodeError 0x8008 0x200), loadable := false }

/-- A machine waiting for a key for `V[2]`, at the instruction `LD V2, K`. -/
def waiting : State := { State.reset with status := .waiting 2, loadable := false, pc := 0x300 }

/-! ### Well-formedness -/

theorem test_wf_refuses_sys_with_the_word_of_cls : (Instr.sys 0x0E0).wf = false := by decide
theorem test_wf_refuses_sys_with_the_word_of_ret : (Instr.sys 0x0EE).wf = false := by decide
theorem test_wf_accepts_other_sys : (Instr.sys 0x000).wf = true ∧ (Instr.sys 0x1EE).wf = true ∧ (Instr.sys 0xFFF).wf = true := by decide

/-! ### Decoding: words written out bit by bit from `30_encoding.md` R76–R80 -/

theorem test_decode_control_flow :
    decode 0b0000000100100011 = .instr (.sys 0x123) ∧ decode 0b0000000011101110 = .instr .ret ∧
    decode 0b0001001010101011 = .instr (.jp 0x2AB) ∧ decode 0b0010001100000000 = .instr (.call 0x300) ∧
    decode 0b0011001101000010 = .instr (.seImm 3 0x42) ∧ decode 0b0100001101000011 = .instr (.sneImm 3 0x43) ∧
    decode 0b0101000100100000 = .instr (.seReg 1 2) ∧ decode 0b1001000100100000 = .instr (.sneReg 1 2) ∧
    decode 0b1011111111111111 = .instr (.jpV0 0xFFF) := by decide

theorem test_decode_register_alu :
    decode 0b0110101001111011 = .instr (.ldImm 10 0x7B) ∧ decode 0b0111111100000101 = .instr (.addImm 15 0x05) ∧
    decode 0b1000000100100000 = .instr (.ldReg 1 2) ∧ decode 0b1000000100100001 = .instr (.orReg 1 2) ∧
    decode 0b1000000100100010 = .instr (.andReg 1 2) ∧ decode 0b1000000100100011 = .instr (.xorReg 1 2) ∧
    decode 0b1000000100100100 = .instr (.addReg 1 2) ∧ decode 0b1000111100010101 = .instr (.sub 15 1) ∧
    decode 0b1000010000000110 = .instr (.shr 4) ∧ decode 0b1000000111110111 = .instr (.subn 1 15) ∧
    decode 0b1000000100001110 = .instr (.shl 1) ∧ decode 0b1100001100001111 = .instr (.rnd 3 0x0F) := by decide

theorem test_decode_index_and_memory :
    decode 0b1010001100000000 = .instr (.ldI 0x300) ∧ decode 0b1111000000011110 = .instr (.addI 0) ∧
    decode 0b1111000000101001 = .instr (.ldF 0) ∧ decode 0b1111001000110011 = .instr (.ldB 2) ∧
    decode 0b1111111101010101 = .instr (.storeRegs 15) ∧ decode 0b1111001101100101 = .instr (.loadRegs 3) := by decide

theorem test_decode_display_timers_input :
    decode 0b0000000011100000 = .instr .cls ∧ decode 0b1101001000110010 = .instr (.drw 2 3 2) ∧
    decode 0b1110010110011110 = .instr (.skp 5) ∧ decode 0b1110010110100001 = .instr (.sknp 5) ∧
    decode 0b1111010100000111 = .instr (.ldVxDt 5) ∧ decode 0b1111001000001010 = .instr (.ldVxK 2) ∧
    decode 0b1111000000010101 = .instr (.ldDtVx 0) ∧ decode 0b1111000100011000 = .instr (.ldStVx 1) := by decide

/-- Ignored bits (R82): V-E7, V-E8, and `n` of type 9. -/
theorem test_decode_ignores_unused_fields :
    decode 0x512F = .instr (.seReg 1 2) ∧ decode 0x912F = .instr (.sneReg 1 2) ∧ decode 0x8176 = .instr (.shr 1) ∧
    decode 0x81FE = .instr (.shl 1) := by decide

/-- V-E4, V-E5. -/
theorem test_decode_refuses_illegal_words :
    [0x8008, 0x800F, 0x80A9, 0xE09F, 0xE0A2, 0xF000, 0xF0FF, 0xF164, 0xF056].all isIllegal = true := by decide

/-- V-E6: the words of type 0 but two are `SYS`. -/
theorem test_decode_type_zero :
    decode 0x0000 = .instr (.sys 0x000) ∧ decode 0x00E1 = .instr (.sys 0x0E1) ∧ decode 0x01EE = .instr (.sys 0x1EE) ∧
    decode 0x0FFF = .instr (.sys 0xFFF) := by decide

theorem test_decodeTableWord : decodeTableWord 16 0xD232 = some (.drw 2 3 2) ∧ decodeTableWord 16 0x8008 = none := by decide

/-! ### Fetch -/

/-- V-E1, V-E2, V-E3 (the byte at 0xFF is 0 after reset, the one at 0xFE is 0x12 here). -/
theorem test_fetch_big_endian_and_wraps :
    (State.reset.memWriteList 0x200 [0x12, 0x34]).fetch = 0x1234 ∧
    ((State.reset.jump 0x0FFF).memWrite 0xFFF 0x6A).fetch = 0x6AF0 ∧
    ((State.reset.jump 0x10FE).memWrite 0x0FE 0x12).fetch = 0x1200 := by decide

/-! ### Control flow -/

/-- V-E6. -/
theorem test_sys : oneOf State.reset 0x0FFF State.pc = some 0x202 := by decide

/-- V-C7. -/
theorem test_ret_pops :
    oneOf { State.reset with sp := 2, stack := (State.reset.stack.set 0 0x202).set 1 0x456 } 0x00EE
      (fun s => (s.sp, s.pc, s.stackSlot 1)) = some (1, 0x456, 0x456) := by decide

/-- V-C6. -/
theorem test_ret_underflow :
    oneOf (State.reset.jump 0x300) 0x00EE (fun s => (s.status, s.sp, s.pc)) =
      some (.halted (.stackUnderflow 0x00EE 0x300 0), 0, 0x300) := by decide

/-- V-C2. -/
theorem test_jp_odd : oneOf State.reset 0x1201 State.pc = some 0x201 := by decide

/-- V-C8. -/
theorem test_call_pushes_unreduced :
    oneOf (State.reset.jump 0x10FE) 0x2400 (fun s => (s.stackSlot 0, s.sp, s.pc)) = some (0x1100, 1, 0x400) := by decide

/-- V-C4. -/
theorem test_call_overflow :
    oneOf { State.reset.jump 0x240 with sp := 16 } 0x2300 (fun s => (s.status, s.sp, s.pc)) =
      some (.halted (.stackOverflow 0x2300 0x240 16), 16, 0x240) := by decide

/-- V-C9, V-C16. -/
theorem test_seImm :
    oneOf ((withV [(3, 0x42)]).jump 0x300) 0x3343 State.pc = some 0x302 ∧
    oneOf (State.reset.jump 0xFFFE) 0x3000 State.pc = some 0x0002 := by decide

/-- V-C10. -/
theorem test_sneImm :
    oneOf ((withV [(3, 0x42)]).jump 0x300) 0x4342 State.pc = some 0x302 ∧
    oneOf ((withV [(3, 0x42)]).jump 0x300) 0x4343 State.pc = some 0x304 := by decide

/-- V-C11, V-E7. -/
theorem test_seReg :
    oneOf (withV [(1, 5), (2, 6)]) 0x5120 State.pc = some 0x202 ∧
    oneOf (withV [(1, 9), (2, 9)]) 0x512F State.pc = some 0x204 := by decide

/-- V-C12. -/
theorem test_sneReg :
    oneOf (withV [(1, 5), (2, 5)]) 0x9120 State.pc = some 0x202 ∧
    oneOf (withV [(1, 5), (2, 6)]) 0x9120 State.pc = some 0x204 := by decide

/-- V-C15. -/
theorem test_jpV0_unreduced : oneOf (withV [(0, 0xFF)]) 0xBFFF State.pc = some 0x10FE := by decide

/-! ### Register load and arithmetic -/

/-- W1. -/
theorem test_ldImm : oneOf State.reset 0x6A7B (fun s => (s.readV 0xA, s.pc)) = some (0x7B, 0x202) := by decide

/-- V-A1, V-A2. -/
theorem test_addImm :
    oneOf (withV [(0, 0xFF), (0xF, 0x55)]) 0x7001 (vAndFlag 0) = some (0x00, 0x55) ∧
    oneOf (withV [(0xF, 0x10)]) 0x7FF5 (vAndFlag 0) = some (0x00, 0x05) := by decide

/-- V-A3. -/
theorem test_ldReg : oneOf (withV [(2, 0x9C)]) 0x8120 (State.readV · 1) = some 0x9C := by decide

/-- V-A4. -/
theorem test_or : oneOf (withV [(1, 0xF0), (2, 0x0F), (0xF, 0x77)]) 0x8121 (vAndFlag 1) = some (0xFF, 0x77) := by decide

/-- V-A5. -/
theorem test_and : oneOf (withV [(1, 0xF0), (2, 0x3C), (0xF, 0x77)]) 0x8122 (vAndFlag 1) = some (0x30, 0x77) := by decide

/-- V-A6. -/
theorem test_xor : oneOf (withV [(1, 0xFF), (2, 0x0F), (0xF, 0x77)]) 0x8123 (vAndFlag 1) = some (0xF0, 0x77) := by decide

/-- V-A8, V-A9, V-A12. -/
theorem test_addReg :
    oneOf (withV [(1, 0x80), (2, 0x80)]) 0x8124 (vAndFlag 1) = some (0x00, 1) ∧
    oneOf (withV [(1, 0x80)]) 0x8114 (vAndFlag 1) = some (0x00, 1) ∧
    oneOf (withV [(1, 0xF0), (0xF, 0x20)]) 0x81F4 (vAndFlag 1) = some (0x10, 1) := by decide

/-- V-A10, V-A11. -/
theorem test_addReg_into_flag :
    oneOf (withV [(0xF, 0xFF), (1, 0x02)]) 0x8F14 (State.readV · 0xF) = some 1 ∧
    oneOf (withV [(0xF, 0x10), (1, 0x20)]) 0x8F14 (State.readV · 0xF) = some 0 := by decide

/-- V-A13, V-A14. -/
theorem test_sub :
    oneOf (withV [(1, 5), (2, 5)]) 0x8125 (vAndFlag 1) = some (0, 1) ∧
    oneOf (withV [(1, 0), (2, 1)]) 0x8125 (vAndFlag 1) = some (0xFF, 0) := by decide

/-- V-A15, V-A16, V-A17. -/
theorem test_sub_with_flag :
    oneOf (withV [(0xF, 5), (1, 3)]) 0x8F15 (State.readV · 0xF) = some 0xFE ∧
    oneOf (withV [(1, 5), (0xF, 7)]) 0x81F5 (vAndFlag 1) = some (5, 0) ∧
    oneOf (withV [(0xF, 0x33)]) 0x8FF5 (State.readV · 0xF) = some 0 := by decide

/-- V-A18, V-A20, V-A21. -/
theorem test_shr :
    oneOf (withV [(4, 0x01)]) 0x8406 (vAndFlag 4) = some (0x00, 1) ∧
    oneOf (withV [(4, 0xFE)]) 0x8406 (vAndFlag 4) = some (0x7F, 0) ∧
    oneOf (withV [(0xF, 0x03)]) 0x8F06 (State.readV · 0xF) = some 0 := by decide

/-- V-E8. -/
theorem test_shr_ignores_y : oneOf (withV [(1, 0x04), (7, 0xFF)]) 0x8176 (fun s => (vAndFlag 1 s, s.readV 7)) = some ((0x02, 0), 0xFF) := by
  decide

/-- V-A22, V-A23. -/
theorem test_subn :
    oneOf (withV [(1, 5), (2, 5)]) 0x8127 (vAndFlag 1) = some (0, 1) ∧
    oneOf (withV [(1, 3), (2, 1)]) 0x8127 (vAndFlag 1) = some (0xFE, 0) := by decide

/-- V-A24, V-A25. -/
theorem test_subn_with_flag :
    oneOf (withV [(0xF, 2), (1, 7)]) 0x8F17 (State.readV · 0xF) = some 6 ∧
    oneOf (withV [(1, 2), (0xF, 9)]) 0x81F7 (vAndFlag 1) = some (0xFF, 1) := by decide

/-- V-A26, V-A27, V-A28. -/
theorem test_shl :
    oneOf (withV [(1, 0x80)]) 0x810E (vAndFlag 1) = some (0x00, 1) ∧
    oneOf (withV [(1, 0x7F)]) 0x810E (vAndFlag 1) = some (0xFE, 0) ∧
    oneOf (withV [(0xF, 0x80)]) 0x8F0E (State.readV · 0xF) = some 2 := by decide

/-- V-A29, V-A31: the answer is consumed. -/
theorem test_rnd :
    oneOf { State.reset with randoms := [0xAB, 0x5C] } 0xC30F (fun s => (s.readV 3, s.randoms)) = some (0x0B, [0x5C]) ∧
    oneOf { State.reset with randoms := [0x5C] } 0xC3FF (State.readV · 3) = some 0x5C := by decide

/-- V-A30: whatever the free draw. -/
theorem test_rnd_mask_zero : oneOf (withV [(3, 0x77)]) 0xC300 (State.readV · 3) = some 0x00 := by
  exact (show _ = some (Config.freeRandomByte 0 &&& 0) from rfl).trans (by simp)

/-! ### Index register and memory -/

/-- V-M1. -/
theorem test_ldI : oneOf State.reset 0xAFFF State.i = some 0x0FFF := by decide

/-- V-M2, V-M3. -/
theorem test_addI :
    oneOf ((withV [(0, 1)]).writeI 0x0FFF) 0xF01E (fun s => (s.i, s.readV 0xF)) = some (0x1000, 0) ∧
    oneOf ((withV [(0, 2)]).writeI 0xFFFF) 0xF01E State.i = some 0x0001 := by decide

/-- V-M5. -/
theorem test_ldF : oneOf (withV [(0, 0xF)]) 0xF029 State.i = some 0x4B := by decide

/-- V-M6. -/
theorem test_ldF_out_of_range :
    oneOf ((withV [(0, 0x10)]).writeI 0x300) 0xF029 (fun s => (s.status, s.i, s.pc)) =
      some (.halted (.glyphOutOfRange 0xF029 0x200 0x10), 0x300, 0x200) := by decide

/-- V-M10, W11. -/
theorem test_ldB :
    oneOf ((withV [(2, 140)]).writeI 0x0FFF) 0xF233 (fun s => [0xFFF, 0x000, 0x001].map s.memRead) = some [1, 4, 0] ∧
    oneOf ((withV [(1, 123)]).writeI 2) 0xF133 (fun s => ([2, 3, 4].map s.memRead, s.i)) = some ([1, 2, 3], 2) := by decide

/-- V-M11: one register, and `I` unchanged. -/
theorem test_storeRegs_one :
    oneOf ((withV [(0, 0xAA), (1, 0xBB)]).writeI 0x400) 0xF055 (fun s => (s.memRead 0x400, s.memRead 0x401, s.i)) =
      some (0xAA, 0x00, 0x400) := by decide

/-- W5: a window of four. -/
theorem test_storeRegs :
    oneOf ((withV [(0, 0x11), (1, 0x22), (2, 0x33), (3, 0x44), (4, 0x55)]).writeI 0x300) 0xF355
      (fun s => [0x300, 0x301, 0x302, 0x303, 0x304].map s.memRead) = some [0x11, 0x22, 0x33, 0x44, 0x00] := by decide

/-- V-M13: the load wraps into glyph 0. -/
theorem test_loadRegs_wraps :
    oneOf (withBytes 0x0FFF [0x11]) 0xF165 (fun s => (s.readV 0, s.readV 1, s.i)) = some (0x11, 0xF0, 0x0FFF) := by decide

/-- V-M14: all sixteen. -/
theorem test_loadRegs_all : oneOf ((withBytes 0x50F [0x99]).writeI 0x500) 0xFF65 (State.readV · 0xF) = some 0x99 := by decide

/-! ### Display -/

/-- V-D1. -/
theorem test_cls :
    oneOf { State.reset with disp := Grid.blank.setCell 3 5 true, prev := Grid.blank.setCell 1 1 true } 0x00E0
      (fun s => (s.disp.cell 3 5, s.prev.cell 1 1, s.dirty)) = some (false, true, true) := by decide

/-- V-D4: a row wraps, and the least significant bit lands rightmost. -/
theorem test_drw_wraps :
    oneOf ((withBytes 0x300 [0x80, 0x01]).writeV 2 31) 0xD122
      (fun s => (s.disp.cell 31 0, s.disp.cell 0 7, s.disp.cell 0 0, s.readV 0xF, s.dirty)) = some (true, true, false, 0, true) := by decide

/-- V-D5, V-D9: a collision; the origin read before the flag is written. -/
theorem test_drw_collision :
    oneOf { withBytes 0x300 [0x80] with disp := Grid.blank.setCell 0 0 true } 0xD121 (fun s => (s.disp.cell 0 0, s.readV 0xF)) =
      some (false, 1) ∧
    oneOf ((withBytes 0x300 [0x80]).writeV 0xF 2) 0xDFF1 (fun s => (s.disp.cell 2 2, s.readV 0xF)) = some (true, 0) := by decide

/-! ### Timers and input -/

/-- V-T1, V-T2, V-T3. -/
theorem test_timer_transfers :
    oneOf (withV [(0, 0x3C)]) 0xF015 State.dt = some 0x3C ∧ oneOf { State.reset with dt := 0x21 } 0xF507 (State.readV · 5) = some 0x21 ∧
    oneOf (withV [(1, 0x10)]) 0xF118 State.st = some 0x10 := by decide

/-- V-T4, V-T5, V-T8. -/
theorem test_skp :
    oneOf { withV [(5, 5)] with samples := [.held [5]] } 0xE59E State.pc = some 0x204 ∧
    oneOf { withV [(5, 5)] with samples := [.held [4]] } 0xE59E State.pc = some 0x202 ∧
    stepOf { (withV [(5, 5)]).withFetchWord 16 0xE59E with samples := [.failure] } (fun s => (s.report, s.status, s.pc, s.accI)) =
      some (.inputFailure 0xE59E 0x200, .running, 0x200, 0) := by decide

/-- V-T6, V-T7. -/
theorem test_sknp :
    oneOf { withV [(5, 5)] with samples := [.held [5]] } 0xE5A1 State.pc = some 0x202 ∧
    oneOf { withV [(5, 5)] with samples := [.held []] } 0xE5A1 State.pc = some 0x204 ∧
    oneOf { withV [(5, 0x10)] with samples := [.failure] } 0xE5A1 (fun s => (s.status, s.samples)) =
      some (.halted (.keyOutOfRange 0xE5A1 0x200 0x10), [.failure]) := by decide

/-- V-T9. -/
theorem test_ldVxK : oneOf (State.reset.jump 0x300) 0xF20A (fun s => (s.status, s.pc)) = some (.waiting 2, 0x300) := by decide

/-- V-T10, V-T11. -/
theorem test_wait_ends :
    stepOf { waiting with actions := [.keyPress 0xC] } (fun s => (s.readV 2, s.status, s.pc)) = some (0x0C, .running, 0x302) ∧
    stepOf { waiting with actions := [.keyFailure] } (fun s => (s.readV 2, s.status, s.pc, s.accI)) = some (0, .running, 0x300, 0) := by
  decide

/-- V-T12, V-T13. -/
theorem test_timerDecay :
    (let t := State.timerDecay { State.reset with dt := 1 }; (t.dt, t.st)) = (0, 0) ∧
    (let t := State.timerDecay { State.reset with st := 7 }; (t.dt, t.st)) = (0, 6) := by decide

/-! ### The scheduler, errors and the host -/

/-- Steps 1, 9 and 10 of the trace at 500 Hz and 60 Hz. -/
theorem test_scheduler_trace :
    stepOf State.reset (fun s => (s.report, s.accI, s.accT)) = some (.sleep 2000, 0, 14666) ∧
    stepOf { State.reset with accT := 666 } (fun s => (s.report, s.accI, s.accT)) = some (.sleep 666, 1334, 0) ∧
    stepOf { State.reset with accI := 1334, dt := 9 } (fun s => (s.report, s.accI, s.accT, s.dt)) = some (.sleep 1334, 0, 15332, 8) := by
  decide

/-- V-X4. -/
theorem test_error_ends_step :
    stepOf { State.reset.withFetchWord 16 0x00EE with accT := 500, dt := 9 } (fun s => (s.status, s.accI, s.accT, s.dt)) =
      some (.halted (.stackUnderflow 0x00EE 0x200 0), 0, 500, 9) := by decide

/-- V-X1, V-X2, V-X3. -/
theorem test_halted :
    step halted = .fault (.halted (.decodeError 0x8008 0x200)) ∧
    stepOf { halted with actions := [.redraw], dirty := true, disp := Grid.blank.setCell 0 0 true }
      (fun s => (s.prev.cell 0 0, s.dirty)) = some (true, false) ∧
    stepOf { halted with actions := [.reset] } State.status = some .running := ⟨rfl, by decide, by decide⟩

/-- V-D12. -/
theorem test_redraw_not_dirty :
    stepOf { State.reset with actions := [.redraw], disp := Grid.blank.setCell 0 0 true } (fun s => s.prev.cell 0 0) = some false := by
  decide

/-- A program is loaded at the origin after reset (R255). -/
theorem test_load :
    stepOf { State.reset with actions := [.load [0x6A, 0x7B]] } State.fetch = some 0x6A7B ∧
    step { halted with actions := [.load [0x6A]] } = .refused .loadNotAfterReset := ⟨by decide, rfl⟩

/-- W12's start: the host sets `DT` after reset, before the first step, and not after it. -/
theorem test_initialise :
    stepOf { State.reset with actions := [.initialise (.dt 200)] } State.dt = some 200 ∧
    step { waiting with actions := [.initialise (.dt 200)] } = .refused .afterFirstStep := ⟨by decide, rfl⟩

/-- The starts of V-C5, V-X4 and V-D12, set by the host; a slot pointer beyond the stack is refused. -/
theorem test_initialise_every_element :
    stepOf { State.reset with actions := [.initialise (.sp 16)] } State.sp = some 16 ∧
    stepOf { State.reset with actions := [.initialise (.accT 500)] } State.accT = some 500 ∧
    stepOf { State.reset with actions := [.initialise (.disp 31 63 true)] } (fun s => (s.disp.cell 31 63, s.dirty)) = some (true, false) ∧
    step { State.reset with actions := [.initialise (.sp 17)] } = .refused .outOfRange := ⟨by decide, by decide, by decide, rfl⟩

/-! ### Witnesses: concrete states and operands that meet the hypotheses of each statement, clause by clause -/

/-- A running machine whose next step executes the word. -/
def due (w : Word) : State := State.reset.placeInstruction w

/-- What a scheduler step hands to the instruction. -/
def begun (w : Word) : State := { due w with report := .idle, loadable := false }

theorem inv_due_ldImm : (due 0x6A7B).Inv :=
  ⟨by decide, ⟨by decide, by decide⟩, rfl, ⟨by decide, by decide, .inl rfl⟩, fun h => absurd rfl h,
    ⟨fun h => absurd rfl h, fun _ _ h => by cases h⟩⟩

theorem test_hyp_DecodeOfEncodeIsInstruction :
    (Instr.sys 0x0DF).wf = true ∧ (Instr.sys 0xFFF).wf = true ∧ (Instr.drw 15 15 15).wf = true := by decide

theorem test_hyp_DecodedWordEncodesBack :
    decode 0x8176 = .instr (.shr 1) ∧ decode 0x512F = .instr (.seReg 1 2) ∧ decode 0xFFFF = .illegal (.miscCode 0xFF) := by decide

theorem test_hyp_WordDecodesByItsTableRow :
    decode 0x00E0 = .instr .cls ∧ (0x00E0 &&& (Instr.sys 0).row.mask = (Instr.sys 0).row.value) ∧
    (0x8FFE &&& (Instr.shl 0).row.mask = (Instr.shl 0).row.value) := by decide

theorem test_hyp_IllegalWordsAreExactlyListed : isIllegal (due 0x8008).fetch = true ∧ isIllegal (due 0xF0FF).fetch = true := by decide

theorem test_hyp_StepRunsDecodedInstruction :
    (due 0x6A7B).actions = [] ∧ (due 0x6A7B).status = .running ∧ (due 0x6A7B).accI = 0 ∧
    decode (wordOfBytes ((due 0x6A7B).memRead (due 0x6A7B).pc.toNat) ((due 0x6A7B).memRead ((due 0x6A7B).pc.toNat + 1))) =
      .instr (.ldImm 0xA 0x7B) := by decide

theorem test_hyp_StepRunsPlacedInstruction : State.reset.memOk ∧ (Instr.ldImm 0xA 0x7B).wf = true := ⟨rfl, rfl⟩

theorem test_hyp_CompletedInstructionStep :
    (due 0x6A7B).actions = [] ∧ (due 0x6A7B).status = .running ∧ (due 0x6A7B).accI = 0 ∧
    decode (due 0x6A7B).fetch = .instr (.ldImm 0xA 0x7B) ∧
    exec (.ldImm 0xA 0x7B) (begun 0x6A7B) = .next ((begun 0x6A7B).writeV 0xA 0x7B).advance ∧
    ((begun 0x6A7B).writeV 0xA 0x7B).advance.status = .running ∧
    (∀ w p, ((begun 0x6A7B).writeV 0xA 0x7B).advance.report ≠ .inputFailure w p) :=
  ⟨rfl, rfl, rfl, by decide, rfl, rfl, fun _ _ h => by cases h⟩

theorem test_hyp_StepWithoutInstructionEvent :
    let s := { State.reset with accI := 1334 }
    s.actions = [] ∧ s.status = .running ∧ s.accI ≠ 0 ∧ s.accT = 0 := by decide

theorem test_hyp_PeriodsRoundDown :
    Config.default.valid = true ∧ Config.default.execHz = 500 ∧ Config.default.timerHz = 60 ∧
    ({ Config.default with execHz := 1000000, timerHz := 999999 } : Config).valid = true := by decide

theorem test_hyp_FatalErrorEndsStep :
    (due 0x00EE).actions = [] ∧ (due 0x00EE).status = .running ∧ (due 0x00EE).accI = 0 ∧ decode (due 0x00EE).fetch = .instr .ret ∧
    exec .ret (begun 0x00EE) = .next ((begun 0x00EE).raise (.stackUnderflow 0x00EE 0x200 0)) ∧
    isIllegal (due 0x8008).fetch = true := ⟨rfl, rfl, rfl, by decide, rfl, by decide⟩

theorem test_hyp_InstructionErrorsArePrecise :
    exec .ret State.reset = .next (State.reset.raise (.stackUnderflow 0x00EE 0x200 0)) ∧
    (let s := { State.reset with sp := 16 }; exec (.call 0x300) s = .next (s.raise (.stackOverflow 0x2300 0x200 16))) ∧
    (let s := withV [(0, 0x10)]; exec (.ldF 0) s = .next (s.raise (.glyphOutOfRange 0xF029 0x200 0x10))) ∧
    (let s := withV [(0, 0x10)]; exec (.skp 0) s = .next (s.raise (.keyOutOfRange 0xE09E 0x200 0x10))) ∧
    (let s := withV [(0, 0x10)]; exec (.sknp 0) s = .next (s.raise (.keyOutOfRange 0xE0A1 0x200 0x10))) ∧
    State.reset.status = .running := ⟨rfl, rfl, rfl, rfl, rfl, rfl⟩

theorem test_hyp_HaltedIsPermanent :
    halted.status = .halted (.decodeError 0x8008 0x200) ∧ halted.loadable = false ∧ halted.actions = [] ∧
    (let s := { halted with actions := [.redraw], dirty := true };
      step s = .next { s with prev := s.disp, dirty := false, actions := [] }) := ⟨rfl, rfl, rfl, rfl⟩

theorem test_hyp_FailedSampleAbandonsStep :
    let s := { (due 0xE59E).writeV 5 15 with samples := [.failure] }
    s.actions = [] ∧ s.status = .running ∧ s.accI = 0 ∧ decode s.fetch = .instr (.skp 5) ∧ (s.readV 5).toNat ≤ 15 ∧
    s.samples = [.failure] := by decide

theorem test_hyp_HostHaltsOnInputFailure :
    (let s := { State.reset with actions := [.haltOnInputFailure], report := .inputFailure 0xE59E 0x200 };
      s.actions = [.haltOnInputFailure] ∧ s.status = .running ∧ s.report = .inputFailure 0xE59E 0x200) ∧
    (let s := { State.reset with actions := [.haltOnInputFailure] };
      s.actions = [.haltOnInputFailure] ∧ ∀ w p, s.report ≠ .inputFailure w p) :=
  ⟨⟨rfl, rfl, rfl⟩, rfl, fun _ _ h => by cases h⟩

theorem test_hyp_KeyEventsEndWait :
    waiting.status = .waiting 2 ∧ ({ waiting with actions := [.keyPress 15] } : State).actions = [.keyPress 15] ∧
    ({ waiting with actions := [.keyFailure] } : State).actions = [.keyFailure] := by decide

/-- A wait that goes on, one that a press ends, one that a failure ends, and a turn with no action listed. -/
theorem test_hyp_WaitStopsTheMachine :
    waiting.status = .waiting 2 ∧ waiting.loadable = false ∧
    step { waiting with actions := [.step] } = .next waiting ∧
    step { waiting with actions := [.keyPress 15] } = .next (waiting.deliverKey 2 15) ∧
    step { waiting with actions := [.keyFailure] } = .next (waiting.abandonWait 2) ∧
    step waiting = .next waiting.waitTurn := ⟨rfl, rfl, rfl, rfl, rfl, rfl⟩

theorem test_hyp_StepKeepsInvariant :
    (due 0x6A7B).Inv ∧ (∀ w, (due 0x6A7B).actions.head? = some (.initialise w) → w.owes (due 0x6A7B)) ∧ step (due 0x6A7B) = .next ((begun 0x6A7B).writeV 0xA 0x7B).advance.completeStep :=
  ⟨inv_due_ldImm, fun _ h => (by cases h), rfl⟩

/-- An initialisation that keeps what it owes, of each kind that owes something. -/
theorem test_hyp_StepKeepsInvariant_initialise :
    let s := { State.reset with dirty := true }
    HostWrite.owes s (.disp 0 0 true) ∧ HostWrite.owes s (.prev 0 0 true) ∧ HostWrite.owes State.reset (.dirty false) ∧
    HostWrite.owes State.reset (.accI 2000) ∧ HostWrite.owes State.reset (.accT 500) ∧ HostWrite.owes State.reset (.status (.waiting 2)) :=
  ⟨fun _ => rfl, fun _ => rfl, fun h => absurd rfl h, .inr rfl, .inl rfl, fun _ => rfl⟩

theorem test_hyp_ResetMeetsInvariant : Config.default.valid = true := by decide

theorem test_hyp_CompletedStepSleepsAtLeastOne :
    (due 0x6A7B).cfg.valid = true ∧ (due 0x6A7B).accOk ∧ (due 0x6A7B).status = .running ∧
    (due 0x6A7B).schedStep = .next ((begun 0x6A7B).writeV 0xA 0x7B).advance.completeStep ∧
    ((begun 0x6A7B).writeV 0xA 0x7B).advance.completeStep.report = .sleep 2000 :=
  ⟨by decide, inv_due_ldImm.acc, rfl, rfl, by decide⟩

/-- At the start both accumulators are 0; after one step `ACC_I` is 0 again. -/
theorem test_hyp_EventsFallOnTheirPeriods :
    (due 0x6A7B).cfg.valid = true ∧ ScheduledRun (due 0x6A7B) ⟨0, 0, 0⟩ ∧ (due 0x6A7B).accI = 0 ∧ (due 0x6A7B).accT = 0 ∧
    ScheduledRun ((begun 0x6A7B).writeV 0xA 0x7B).advance.completeStep ⟨2000, 1, 1⟩ ∧
    ((begun 0x6A7B).writeV 0xA 0x7B).advance.completeStep.accI = 0 :=
  ⟨by decide, .start _ rfl rfl rfl, rfl, rfl,
    .slept (due 0x6A7B) _ ⟨0, 0, 0⟩ 2000 (.start _ rfl rfl rfl) rfl rfl (by decide), by decide⟩

theorem test_hyp_ResetZeroesEverything : ({ halted with actions := [.reset] } : State).actions = [.reset] := by decide

theorem test_hyp_FirstStepReportsInstructionPeriod :
    (due 0x6A7B).cfg.valid = true ∧ (due 0x6A7B).accI = 0 ∧ (due 0x6A7B).accT = 0 ∧
    decode (due 0x6A7B).fetch = .instr (.ldImm 0xA 0x7B) ∧
    exec (.ldImm 0xA 0x7B) (begun 0x6A7B) = .next ((begun 0x6A7B).writeV 0xA 0x7B).advance := ⟨by decide, rfl, rfl, by decide, rfl⟩

/-- The longest ROM that fits under the default origin, and one byte more. -/
theorem test_hyp_LoadWritesRomAtOrigin :
    State.reset.loadable = true ∧ State.reset.memOk ∧
    (List.replicate 3584 (0xFF : Byte)).length ≤ 4096 - State.reset.cfg.programOrigin ∧
    4096 - State.reset.cfg.programOrigin < (List.replicate 3585 (0xFF : Byte)).length :=
  ⟨rfl, rfl, by rw [List.length_replicate]; decide, by rw [List.length_replicate]; decide⟩

/-- The bounds of the ranges are met on both sides. -/
theorem test_hyp_HostInitialisesBeforeFirstStep :
    State.reset.status = .running ∧ State.reset.report = .idle ∧ State.reset.memOk ∧
    ({ State.reset with actions := [.initialise (.mem 4096 1)] } : State).actions = [.initialise (.mem 4096 1)] ∧
    State.reset.cfg.stackDepth = 16 ∧ periodI State.reset.cfg = 2000 ∧ periodT State.reset.cfg = 16666 ∧
    HostWrite.inRange State.reset.cfg (.slot 15 0) = true ∧ HostWrite.inRange State.reset.cfg (.slot 16 0) = false ∧
    HostWrite.inRange State.reset.cfg (.accT 16666) = true ∧ HostWrite.inRange State.reset.cfg (.accI 2001) = false ∧
    ({ State.reset with report := .sleep 2000 } : State).report ≠ .idle :=
  ⟨rfl, rfl, rfl, rfl, rfl, by decide, by decide, by decide, by decide, by decide, by decide, by decide⟩

theorem test_hyp_RedrawCopiesAndClearsDirty :
    ({ State.reset with dirty := true } : State).dirty = true ∧ State.reset.dirty = false := by decide

theorem test_hyp_RedrawNeverChangesComputation :
    (due 0x6A7B).schedStep = .next ((begun 0x6A7B).writeV 0xA 0x7B).advance.completeStep := rfl

theorem test_hyp_SysOnlyAdvances : (0x0DF : Addr) ≠ 0x0E0 ∧ (0x0DF : Addr) ≠ 0x0EE := by decide

theorem test_hyp_RetPopsIntoPc :
    State.reset.sp = 0 ∧ (let s := { State.reset with sp := 16, stack := State.reset.stack.set 15 0x456 };
      s.sp = 15 + 1 ∧ s.stack[15]? = some 0x456) := by decide

theorem test_hyp_CallPushesReturnAddress :
    State.reset.stackOk ∧ State.reset.sp < State.reset.cfg.stackDepth ∧ State.stackOk { State.reset with sp := 16 } ∧
    (16 = State.reset.cfg.stackDepth) ∧ State.stackOk { State.reset with sp := 15 } :=
  ⟨⟨rfl, by decide⟩, by decide, ⟨rfl, by decide⟩, rfl, rfl, by decide⟩

theorem test_hyp_ReturnUndoesCall :
    State.stackOk { State.reset with sp := 15 } ∧ 15 < State.reset.cfg.stackDepth := ⟨⟨rfl, by decide⟩, by decide⟩

/-- The four cases of `x` and `y` naming the flag register, and both flags. -/
theorem test_hyp_flag_register_cases :
    (0xE : Reg) ≠ flagReg ∧ (0xF : Reg) = flagReg ∧ (0 : Nat) = bitOf (decide (1 ≤ 0)) ∧ (1 : Nat) = bitOf (decide (1 ≤ 1)) := by decide

theorem test_hyp_RndMasksTheRandomByte :
    ({ State.reset with randoms := [0xFF] } : State).randoms = [0xFF] ∧ State.reset.randoms = [] := by decide

theorem test_hyp_GlyphAddressIsFiveTimesDigit :
    ((withV [(0, 15)]).readV 0).toNat ≤ 15 ∧ 15 < ((withV [(0, 16)]).readV 0).toNat := by decide

theorem test_hyp_DecimalDigitsAreStored :
    (withV [(2, 140)]).memOk ∧ ∀ k, k < 3 → 2 ≠ (0x0FFF + k) % 4096 := ⟨rfl, by decide⟩

theorem test_hyp_RegisterDumpStoresUpToVx :
    State.reset.memOk ∧ (15 : Reg) ≤ 15 ∧ ∀ k, k ≤ 15 → 16 ≠ (0 + k) % 4096 := ⟨rfl, by decide, by decide⟩

theorem test_hyp_RegisterLoadReadsUpToVx : (3 : Reg) ≤ 3 ∧ (3 : Reg) < 4 := by decide

theorem test_hyp_DumpThenLoadRestoresRegisters :
    (withV [(3, 0x44)]).memOk ∧
    exec (.storeRegs 3) (withV [(3, 0x44)]) = .next ((withV [(3, 0x44)]).storeRegsUpTo 4).advance := ⟨rfl, rfl⟩

theorem test_hyp_StoredByteIsFetched :
    let s := (withV [(0, 0x6A)]).writeI 0x202
    let t := (s.storeRegsUpTo 1).advance
    s.memOk ∧ (0 : Reg) ≤ 0 ∧ exec (.storeRegs 0) s = .next t ∧ t.pc.toNat % 4096 = (s.i.toNat + (0 : Reg).val) % 4096 := by
  refine ⟨rfl, by decide, rfl, by decide⟩

theorem test_hyp_DrawingTwiceRestoresGrid :
    let s := withBytes 0x300 [0xC0]
    let t := ((s.setDisplay (s.drawnCanvas 1 2 1).grid).writeFlag (s.drawnCanvas 1 2 1).erased).advance
    let u := ((t.setDisplay (t.drawnCanvas 1 2 1).grid).writeFlag (t.drawnCanvas 1 2 1).erased).advance
    (1 : Reg) ≠ flagReg ∧ (2 : Reg) ≠ flagReg ∧ exec (.drw 1 2 1) s = .next t ∧ exec (.drw 1 2 1) t = .next u :=
  ⟨by decide, by decide, rfl, rfl⟩

theorem test_hyp_KeySkipsFollowTheSnapshot :
    15 < ((withV [(5, 16)]).readV 5).toNat ∧ ((withV [(5, 15)]).readV 5).toNat = (15 : Key).val ∧
    ({ withV [(5, 15)] with samples := [.held [15]] } : State).samples = [.held [15]] ∧
    ({ withV [(5, 15)] with samples := [.failure] } : State).samples = [.failure] ∧ (withV [(5, 15)]).samples = [] := by decide

theorem test_hyp_KeyWaitSuspendsStep :
    (due 0xF20A).actions = [] ∧ (due 0xF20A).status = .running ∧ (due 0xF20A).accI = 0 ∧ decode (due 0xF20A).fetch = .instr (.ldVxK 2) := by
  decide

theorem test_hyp_OnlyDestinationsAndFlagChange :
    exec (.addReg 1 2) State.reset = .next ((State.reset.writeV 1 0).writeFlag false).advance ∧ writesReg (.addReg 1 2) 2 = false :=
  ⟨rfl, rfl⟩

theorem test_hyp_OnlyStoredBytesChange :
    State.reset.memOk ∧ exec (.storeRegs 1) State.reset = .next (State.reset.storeRegsUpTo 2).advance ∧
    ∀ k, k < storeCount (.storeRegs 1) → physAddr 2 ≠ physAddr (State.reset.indexAddr k) := ⟨rfl, rfl, by decide⟩

theorem test_hyp_OnlyNamedWritersChangeSpecialState :
    exec (.jp 0x300) State.reset = .next (State.reset.jump 0x300) := rfl

theorem test_hyp_ProgramCounterAdvances :
    exec (.seImm 0 0) State.reset = .next State.reset.skip ∧ State.reset.status = .running ∧ isTransfer (.seImm 0 0) = false ∧
    (∀ w p, State.reset.report ≠ .inputFailure w p) := ⟨rfl, rfl, rfl, fun _ _ h => by cases h⟩

theorem test_hyp_NoInstructionReadsSoundTimer :
    exec (.ldStVx 1) State.reset = .next { State.reset with st := 0 }.advance := rfl

end Sys2Proof.Tests
end

section
/-! What an instruction can change: the frame of every instruction, said once. -/

namespace Sys2Proof.Machine

variable {s t : State} {i : Instr}

/-! ### The instructions that branch -/

/-- A guarded meaning answers one of its two states: the shape of `RET`, `CALL`, `LD F` and the key skips. -/
theorem guarded_cases {c : Prop} {_ : Decidable c} {a b : State} (h : (if c then .next a else .next b : Result) = .next t) :
    (c ∧ t = a) ∨ (¬ c ∧ t = b) := by
  split at h <;> cases h
  exacts [.inl ⟨‹_›, rfl⟩, .inr ⟨‹_›, rfl⟩]

theorem exec_ret_pop (hs : s.sp ≠ 0) : exec .ret s = .next (s.dropSlot.jump (s.stackSlot (s.sp - 1))) := if_neg hs

theorem exec_call_push {nnn : Addr} (hs : s.sp ≠ s.cfg.stackDepth) :
    exec (.call nnn) s = .next ((s.push (s.pc + 2)).jump (zext16 nnn)) := if_neg hs

/-- The meaning that `SKP Vx` and `SKNP Vx` share: the range check, then the skip (R200, R201). -/
def execKeySkip (w : Word) (x : Reg) (want : Bool) (s : State) : Result :=
  if 15 < (s.readV x).toNat then .next (s.raise (.keyOutOfRange w s.pc (s.readV x)))
  else .next (s.skipOnKey w (Fin.ofNat 16 (s.readV x).toNat) want)

/-- `SKP Vx` skips where the key is held. -/
theorem exec_skp_eq (x : Reg) (s : State) : exec (.skp x) s = execKeySkip (encode (.skp x)) x true s := rfl

/-- `SKNP Vx` skips where the key is not held. -/
theorem exec_sknp_eq (x : Reg) (s : State) : exec (.sknp x) s = execKeySkip (encode (.sknp x)) x false s := rfl

/-- A key skip raises the range error, signals the failed sample, or skips or advances (R200, R201, R225, R226). -/
theorem execKeySkip_cases {w : Word} {x : Reg} {want : Bool} (h : execKeySkip w x want s = .next t) :
    t = s.raise (.keyOutOfRange w s.pc (s.readV x)) ∨ t = s.dropSample.signalInputFailure w ∨ ∃ c, t = s.dropSample.skipIf c := by
  obtain ⟨-, rfl⟩ | ⟨-, rfl⟩ := guarded_cases h
  · exact .inl rfl
  · obtain ⟨_, -, e⟩ | ⟨-, e⟩ := skipOnKey_cases s w (Fin.ofNat 16 (s.readV x).toNat) want
    · exact .inr (.inr ⟨_, e⟩)
    · exact .inr (.inl e)

/-! ### Shared operations, by the fields they can change -/

theorem skipIf_pc_cases (s : State) (c : Bool) : (s.skipIf c).pc = s.pc + 2 ∨ (s.skipIf c).pc = s.pc + 4 := by
  cases c
  exacts [.inl rfl, .inr rfl]

theorem skipIf_eq (s : State) (c : Bool) : s.skipIf c = { s with pc := (s.skipIf c).pc } := by
  cases c <;> rfl

theorem dropRandom_eq (s : State) :
    s.dropRandom = { s with randoms := s.dropRandom.randoms, draws := s.dropRandom.draws } := by
  unfold State.dropRandom
  split <;> rfl

theorem dropSample_eq (s : State) :
    s.dropSample = { s with samples := s.dropSample.samples, draws := s.dropSample.draws } := by
  unfold State.dropSample
  split <;> rfl

/-! ### The frame of every instruction -/

/-- `s` with the fields that the instruction may write taken from `t`; `CLS` and `DRW` always set `DIRTY` (R180, R185). -/
def State.withWritten (s t : State) : Instr → State
  | .sys _ | .jp _ | .jpV0 _ | .seImm _ _ | .sneImm _ _ | .seReg _ _ | .sneReg _ _ => { s with pc := t.pc }
  | .cls => { s with pc := t.pc, disp := t.disp, dirty := true }
  | .ret => { s with pc := t.pc, sp := t.sp, status := t.status }
  | .call _ => { s with pc := t.pc, stack := t.stack, sp := t.sp, status := t.status }
  | .ldImm _ _ | .addImm _ _ | .ldReg _ _ | .orReg _ _ | .andReg _ _ | .xorReg _ _ | .addReg _ _ | .sub _ _ | .shr _ | .subn _ _
  | .shl _ | .ldVxDt _ | .loadRegs _ => { s with pc := t.pc, v := t.v }
  | .rnd _ _ => { s with pc := t.pc, v := t.v, randoms := t.randoms, draws := t.draws }
  | .drw _ _ _ => { s with pc := t.pc, v := t.v, disp := t.disp, dirty := true }
  | .skp _ | .sknp _ => { s with pc := t.pc, status := t.status, report := t.report, samples := t.samples, draws := t.draws }
  | .ldVxK _ => { s with status := t.status }
  | .ldDtVx _ => { s with pc := t.pc, dt := t.dt }
  | .ldStVx _ => { s with pc := t.pc, st := t.st }
  | .ldI _ | .addI _ => { s with pc := t.pc, i := t.i }
  | .ldF _ => { s with pc := t.pc, i := t.i, status := t.status }
  | .ldB _ | .storeRegs _ => { s with pc := t.pc, mem := t.mem }

theorem execKeySkip_frame {w : Word} {x : Reg} {want : Bool} (h : execKeySkip w x want s = .next t) :
    t = { s with pc := t.pc, status := t.status, report := t.report, samples := t.samples, draws := t.draws } := by
  obtain rfl | rfl | ⟨c, rfl⟩ := execKeySkip_cases h
  · rfl
  · rw [dropSample_eq]; rfl
  · rw [skipIf_eq, dropSample_eq]

/-- What an instruction may write is all it changes (`10_state.md` R35). -/
theorem exec_frame (h : exec i s = .next t) : t = s.withWritten t i := by
  cases i
  case ret | call nnn | ldF x => obtain ⟨-, rfl⟩ | ⟨-, rfl⟩ := guarded_cases h <;> rfl
  case skp x | sknp x => exact execKeySkip_frame h
  case seImm | sneImm | seReg | sneReg => cases h; exact skipIf_eq s _
  case rnd x kk => cases h; rw [State.withWritten, dropRandom_eq]; rfl
  case storeRegs x => cases h; rw [State.withWritten, storeRegsUpTo_eq]; rfl
  case loadRegs x => cases h; rw [State.withWritten, loadRegsUpTo_eq]; rfl
  all_goals cases h; rfl

end Sys2Proof.Machine
end

section
/-! Obligations about single instructions: the special state, the registers, the program counter and the stack. -/

namespace Sys2Proof.Machine

variable {s t : State} {i : Instr}

/-! ### Field by field: who writes it -/

theorem exec_accI (h : exec i s = .next t) : t.accI = s.accI :=
  (congrArg State.accI (exec_frame h)).trans (by cases i <;> rfl)

theorem exec_accT (h : exec i s = .next t) : t.accT = s.accT :=
  (congrArg State.accT (exec_frame h)).trans (by cases i <;> rfl)

theorem exec_prev (h : exec i s = .next t) : t.prev = s.prev :=
  (congrArg State.prev (exec_frame h)).trans (by cases i <;> rfl)

theorem exec_cfg (h : exec i s = .next t) : t.cfg = s.cfg :=
  (congrArg State.cfg (exec_frame h)).trans (by cases i <;> rfl)

theorem exec_actions (h : exec i s = .next t) : t.actions = s.actions :=
  (congrArg State.actions (exec_frame h)).trans (by cases i <;> rfl)

theorem exec_loadable (h : exec i s = .next t) : t.loadable = s.loadable :=
  (congrArg State.loadable (exec_frame h)).trans (by cases i <;> rfl)

theorem exec_i (h : exec i s = .next t) (hl : ∀ nnn, i ≠ .ldI nnn) (ha : ∀ x, i ≠ .addI x) (hf : ∀ x, i ≠ .ldF x) : t.i = s.i := by
  cases i
  case ldI nnn => exact absurd rfl (hl nnn)
  case addI x => exact absurd rfl (ha x)
  case ldF x => exact absurd rfl (hf x)
  all_goals exact (congrArg State.i (exec_frame h)).trans rfl

theorem exec_stack (h : exec i s = .next t) (hc : ∀ nnn, i ≠ .call nnn) : t.stack = s.stack := by
  cases i
  case call nnn => exact absurd rfl (hc nnn)
  all_goals exact (congrArg State.stack (exec_frame h)).trans rfl

theorem exec_sp (h : exec i s = .next t) (hc : ∀ nnn, i ≠ .call nnn) (hr : i ≠ .ret) : t.sp = s.sp := by
  cases i
  case call nnn => exact absurd rfl (hc nnn)
  case ret => exact absurd rfl hr
  all_goals exact (congrArg State.sp (exec_frame h)).trans rfl

theorem exec_dt (h : exec i s = .next t) (hd : ∀ x, i ≠ .ldDtVx x) : t.dt = s.dt := by
  cases i
  case ldDtVx x => exact absurd rfl (hd x)
  all_goals exact (congrArg State.dt (exec_frame h)).trans rfl

theorem exec_st (h : exec i s = .next t) (hd : ∀ x, i ≠ .ldStVx x) : t.st = s.st := by
  cases i
  case ldStVx x => exact absurd rfl (hd x)
  all_goals exact (congrArg State.st (exec_frame h)).trans rfl

theorem exec_disp_dirty (h : exec i s = .next t) (hc : i ≠ .cls) (hd : ∀ x y n, i ≠ .drw x y n) :
    t.disp = s.disp ∧ t.dirty = s.dirty := by
  cases i
  case cls => exact absurd rfl hc
  case drw x y n => exact absurd rfl (hd x y n)
  all_goals exact ⟨(congrArg State.disp (exec_frame h)).trans rfl, (congrArg State.dirty (exec_frame h)).trans rfl⟩

/-- Settles O58: each field by the frame of the instructions other than its named writers. -/
theorem onlyNamedWritersChangeSpecialState : Obligations.OnlyNamedWritersChangeSpecialState := by
  intro i s t h
  exact ⟨exec_i h, fun hc => ⟨exec_stack h hc, exec_sp h hc⟩, exec_dt h, exec_st h, exec_disp_dirty h,
    exec_accI h, exec_accT h, exec_prev h, exec_cfg h, exec_actions h, exec_loadable h⟩

/-! ### The registers -/

theorem readV_congr (hv : t.v = s.v) (q : Reg) : t.readV q = s.readV q := by
  rw [State.readV, hv, State.readV]

theorem readV_writeFlag_ne (s : State) {q : Reg} (f : Bool) (hq : q ≠ flagReg) : (s.writeFlag f).readV q = s.readV q :=
  readV_writeV_ne s _ hq

/-- Settles O56: the destinations and the flag register are the registers that the instruction's `writeV`s name, and a register that none
names reads as before. -/
theorem onlyDestinationsAndFlagChange : Obligations.OnlyDestinationsAndFlagChange := by
  intro i s t q h hq
  cases i
  case ldImm | addImm | ldReg | orReg | andReg | xorReg | ldVxDt =>
    cases h
    exact readV_writeV_ne s _ (by simpa [writesReg] using hq)
  case rnd x kk =>
    cases h
    exact (readV_writeV_ne s.dropRandom _ (by simpa [writesReg] using hq)).trans (dropRandom_readV s q)
  case sub | shr | subn | shl | addReg =>
    obtain ⟨hx, hf⟩ : _ ∧ q ≠ flagReg := by simpa [writesReg] using hq
    cases h
    simp [readV_writeV_ne _ _ hx, readV_writeFlag_ne _ _ hf]
  case drw x y n =>
    cases h
    exact readV_writeFlag_ne (s.setDisplay _) _ (by simpa [writesReg] using hq)
  case loadRegs x =>
    have hx : x < q := by simpa [writesReg] using hq
    cases h
    rw [advance_readV, readV_loadRegsUpTo s _ (by omega), if_neg (Nat.not_lt.2 hx)]
  all_goals exact readV_congr ((congrArg State.v (exec_frame h)).trans rfl) q

/-! ### The program counter -/

theorem execKeySkip_pc {w : Word} {x : Reg} {want : Bool} (h : execKeySkip w x want s = .next t) (ht : t.status = .running)
    (hr : t.report = s.report) (hi : ∀ w p, s.report ≠ .inputFailure w p) : t.pc = s.pc + 2 ∨ t.pc = s.pc + 4 := by
  obtain rfl | rfl | ⟨c, rfl⟩ := execKeySkip_cases h
  · simp at ht
  · exact absurd hr.symm (hi _ _)
  · rw [← dropSample_pc s]
    exact skipIf_pc_cases s.dropSample c

/-- Settles O59: an instruction that raises no error, begins no wait and signals no failed sample ends with `advance` or `skipIf`. -/
theorem programCounterAdvances : Obligations.ProgramCounterAdvances := by
  intro i s t h hs ht hr htr hi
  cases i
  case ret | jp | call | jpV0 => simp [isTransfer] at htr
  case seImm | sneImm | seReg | sneReg =>
    cases h
    exact (skipIf_pc_cases s _).imp_right fun hp => ⟨rfl, hp⟩
  case skp x | sknp x => exact (execKeySkip_pc h ht hr hi).imp_right fun hp => ⟨rfl, hp⟩
  case ldVxK x => cases h; simp at ht
  case ldF x =>
    obtain ⟨-, rfl⟩ | ⟨-, rfl⟩ := guarded_cases h
    · simp at ht
    · exact .inl rfl
  case rnd x kk => cases h; simp
  case storeRegs x => cases h; simp
  case loadRegs x => cases h; simp
  all_goals cases h; exact .inl rfl

/-! ### The stack -/

theorem stackSlot_push (s : State) (w : Word) (hs : s.sp < s.stack.length) : (s.push w).stackSlot s.sp = w := by
  simp [State.stackSlot, List.getD_eq_getElem?_getD, hs]

/-- Settles O34: the slot that `RET` reads is the one that `CALL` wrote. -/
theorem returnUndoesCall : Obligations.ReturnUndoesCall := by
  intro nnn s ⟨hlen, _⟩ hsp
  have hslot : (s.push (s.pc + 2)).stackSlot s.sp = s.pc + 2 := stackSlot_push s _ (by omega)
  refine ⟨_, _, exec_call_push (by omega), exec_ret_pop (Nat.succ_ne_zero _), ?_⟩
  exact congrArg (State.jump ((s.push (s.pc + 2)).jump (zext16 nnn)).dropSlot) hslot

end Sys2Proof.Machine
end

section
/-! `ST`, `PREV` and `DIRTY` are outputs: other values in them change nothing else, through an instruction and through a scheduler step. -/

namespace Sys2Proof.Machine

variable {s t : State} {i : Instr}

/-! ### What no instruction reads -/

/-- Other values in the sound timer, the shown picture and the redraw flag. -/
def State.withOutputs (s : State) (b : Byte) (p : Grid) (d : Bool) : State := { s with st := b, prev := p, dirty := d }

section withOutputs

variable (b : Byte) (p : Grid) (d : Bool)

theorem storeRegsUpTo_withOutputs (s : State) (n : Nat) :
    (s.withOutputs b p d).storeRegsUpTo n = (s.storeRegsUpTo n).withOutputs b p d := by
  induction n with
  | zero => rfl
  | succ n ih => rw [State.storeRegsUpTo, ih]; rfl

theorem loadRegsUpTo_withOutputs (s : State) (n : Nat) :
    (s.withOutputs b p d).loadRegsUpTo n = (s.loadRegsUpTo n).withOutputs b p d := by
  induction n with
  | zero => rfl
  | succ n ih => rw [State.loadRegsUpTo, ih]; rfl

theorem skipIf_withOutputs (s : State) (c : Bool) : (s.withOutputs b p d).skipIf c = (s.skipIf c).withOutputs b p d := by
  cases c <;> rfl

theorem dropRandom_withOutputs (s : State) : (s.withOutputs b p d).dropRandom = s.dropRandom.withOutputs b p d := by
  cases h : s.randoms <;> simp [State.dropRandom, State.withOutputs, h]

theorem dropSample_withOutputs (s : State) : (s.withOutputs b p d).dropSample = s.dropSample.withOutputs b p d := by
  cases h : s.samples <;> simp [State.dropSample, State.withOutputs, h]

theorem skipOnKey_withOutputs (s : State) (w : Word) (k : Key) (want : Bool) :
    (s.withOutputs b p d).skipOnKey w k want = (s.skipOnKey w k want).withOutputs b p d := by
  have hn : (s.withOutputs b p d).nextSample = s.nextSample := rfl
  unfold State.skipOnKey
  rw [hn, dropSample_withOutputs]
  split
  · exact skipIf_withOutputs b p d _ _
  · rfl

/-- `guarded_cases` for both states at once: a guard that reads none of the outputs chooses the same branch. -/
theorem guarded_withOutputs {c : Prop} {_ : Decidable c} {u w : State} (h : (if c then .next u else .next w : Result) = .next t) :
    (if c then .next (u.withOutputs b p d) else .next (w.withOutputs b p d) : Result) = .next (t.withOutputs b p d) := by
  split at h <;> cases h
  exacts [if_pos ‹_›, if_neg ‹_›]

theorem execKeySkip_withOutputs {w : Word} {x : Reg} {want : Bool} (h : execKeySkip w x want s = .next t) :
    execKeySkip w x want (s.withOutputs b p d) = .next (t.withOutputs b p d) := by
  rw [execKeySkip, skipOnKey_withOutputs]
  exact guarded_withOutputs b p d h

/-- With other values of `ST`, `PREV` and `DIRTY` an instruction ends as before but for them; `PREV` stays, and each of the others stays or is
what the instruction wrote. -/
theorem exec_withOutputs (h : exec i s = .next t) : ∃ b' d',
    exec i (s.withOutputs b p d) = .next (t.withOutputs b' p d') ∧
    (b' = b ∧ t.st = s.st ∨ b' = t.st) ∧ (d' = d ∧ t.dirty = s.dirty ∨ d' = t.dirty) := by
  cases i
  case cls => cases h; exact ⟨b, true, rfl, .inl ⟨rfl, rfl⟩, .inr rfl⟩
  case drw x y n => cases h; exact ⟨b, true, rfl, .inl ⟨rfl, rfl⟩, .inr rfl⟩
  case ldStVx x => cases h; exact ⟨s.readV x, d, rfl, .inr rfl, .inl ⟨rfl, rfl⟩⟩
  all_goals refine ⟨b, d, ?_, .inl ⟨rfl, exec_st h nofun⟩, .inl ⟨rfl, (exec_disp_dirty h nofun nofun).2⟩⟩
  case skp x | sknp x => exact execKeySkip_withOutputs b p d h
  case ret | call nnn | ldF x => exact guarded_withOutputs b p d h
  case seImm | sneImm | seReg | sneReg => cases h; exact congrArg _ (skipIf_withOutputs b p d s _)
  case rnd x kk =>
    cases h
    exact congrArg (fun u => Host.Outcome.next (State.writeV u x (s.nextRandom &&& kk)).advance) (dropRandom_withOutputs b p d s)
  case storeRegs x => cases h; exact congrArg (fun u => Host.Outcome.next u.advance) (storeRegsUpTo_withOutputs b p d s _)
  case loadRegs x => cases h; exact congrArg (fun u => Host.Outcome.next u.advance) (loadRegsUpTo_withOutputs b p d s _)
  all_goals cases h; rfl

end withOutputs

/-- Settles O60: `exec_withOutputs` with another `ST` only. -/
theorem noInstructionReadsSoundTimer : Obligations.NoInstructionReadsSoundTimer := by
  intro i s t b h
  obtain ⟨b', d', hu, hb, hd⟩ := exec_withOutputs b s.prev s.dirty h
  have hd : d' = t.dirty := hd.elim (fun e => e.1.trans e.2.symm) id
  refine ⟨_, hu, ?_, hb.imp_left And.left⟩
  rw [hd, ← exec_prev h]
  rfl

/-! ### A redraw and a scheduler step -/

/-- Another shown picture and redraw flag. -/
def State.withShown (s : State) (p : Grid) (d : Bool) : State := { s with prev := p, dirty := d }

theorem redraw_eq_withShown (s : State) : s.redraw = s.withShown s.redraw.prev s.redraw.dirty := by
  unfold State.redraw
  split <;> rfl

/-- A step that is due performs one instruction and goes on as its outcome says (R241). -/
theorem schedStep_event {u : State} (hz : s.accI = 0) (hu : s.beginStep.executeOne = .next u) :
    s.schedStep = .next u.afterInstruction := by
  simp [State.schedStep, hz, hu]

/-- A step that is not due performs none (R241). -/
theorem schedStep_idle (hz : s.accI ≠ 0) : s.schedStep = .next s.beginStep.timerEvent.sleepUntilNext := by
  simp [State.schedStep, hz]

section withShown

variable (p : Grid) (d : Bool)

theorem exec_withShown (h : exec i s = .next t) : ∃ d', exec i (s.withShown p d) = .next (t.withShown p d') := by
  obtain ⟨b', d', hu, hb, -⟩ := exec_withOutputs s.st p d h
  have hb : b' = t.st := hb.elim (fun e => e.1.trans e.2.symm) id
  subst hb
  exact ⟨d', hu⟩

theorem executeOne_withShown (h : s.executeOne = .next t) : ∃ d', (s.withShown p d).executeOne = .next (t.withShown p d') := by
  have hf : (s.withShown p d).fetch = s.fetch := rfl
  unfold State.executeOne
  rw [hf]
  obtain ⟨i, hi, hx⟩ | ⟨why, hw, rfl⟩ := executeOne_cases h
  · rw [hi]; exact exec_withShown p d hx
  · rw [hw]; exact ⟨d, rfl⟩

theorem timerEvent_withShown (s : State) : (s.withShown p d).timerEvent = s.timerEvent.withShown p d := by
  by_cases h : s.accT = 0 <;> simp [State.timerEvent, State.withShown, State.timerDecay, h]

theorem completeStep_withShown (s : State) : (s.withShown p d).completeStep = s.completeStep.withShown p d :=
  congrArg State.sleepUntilNext (timerEvent_withShown p d { s with accI := periodI s.cfg })

theorem afterInstruction_withShown (u : State) : (u.withShown p d).afterInstruction = u.afterInstruction.withShown p d := by
  have hs : (u.withShown p d).status = u.status := rfl
  have hr : (u.withShown p d).report = u.report := rfl
  unfold State.afterInstruction
  rw [hs, hr, completeStep_withShown]
  split
  · rfl
  · rfl
  · split <;> rfl

theorem schedStep_withShown (h : s.schedStep = .next t) : ∃ d', (s.withShown p d).schedStep = .next (t.withShown p d') := by
  obtain ⟨hz, u, hu, rfl⟩ | ⟨hz, rfl⟩ := schedStep_cases h
  · obtain ⟨d', hu'⟩ := executeOne_withShown p d hu
    refine ⟨d', ?_⟩
    rw [← afterInstruction_withShown]
    exact schedStep_event hz hu'
  · refine ⟨d, (schedStep_idle (s := s.withShown p d) hz).trans ?_⟩
    exact congrArg (fun v => Host.Outcome.next v.sleepUntilNext) (timerEvent_withShown p d s.beginStep)

end withShown

/-- Settles O29: a redraw changes `PREV` and `DIRTY` only, and `schedStep_withShown` carries other values of them through the step. -/
theorem redrawNeverChangesComputation : Obligations.RedrawNeverChangesComputation := by
  intro s t h
  rw [redraw_eq_withShown]
  obtain ⟨d', hu⟩ := schedStep_withShown s.redraw.prev s.redraw.dirty h
  exact ⟨_, hu, rfl⟩

end Sys2Proof.Machine
end

section
/-! The invariant is kept by every step of the machine and its host. -/

namespace Sys2Proof.Machine

variable {s t : State} {i : Instr}

/-! ### The part of the invariant that no scheduling touches -/

/-- The invariant's clauses on the configuration, the stack, memory and the display. -/
structure State.DataOk (s : State) : Prop where
  config : s.cfg.valid = true
  stack  : s.stackOk
  mem    : s.memOk
  dirty  : s.dirtyOk

theorem State.DataOk.inv (h : s.DataOk) (ha : s.accOk) (he : s.eventOk) : s.Inv := ⟨h.config, h.stack, h.mem, ha, h.dirty, he⟩

theorem exec_stackOk (hs : s.stackOk) (h : exec i s = .next t) : t.stackOk := by
  have hc := exec_cfg h
  obtain ⟨hlen, hsp⟩ := hs
  cases i
  case ret =>
    obtain ⟨-, rfl⟩ | ⟨-, rfl⟩ := guarded_cases h
    · exact ⟨hlen, hsp⟩
    · exact ⟨hlen, (Nat.sub_le _ _).trans hsp⟩
  case call nnn =>
    obtain ⟨-, rfl⟩ | ⟨hfree, rfl⟩ := guarded_cases h
    · exact ⟨hlen, hsp⟩
    · exact ⟨List.length_set.trans hlen, Nat.lt_of_le_of_ne hsp hfree⟩
  all_goals
    unfold State.stackOk
    rw [exec_stack h nofun, exec_sp h nofun nofun, hc]
    exact ⟨hlen, hsp⟩

theorem exec_memOk (hm : s.memOk) (h : exec i s = .next t) : t.memOk := by
  have hc := exec_cfg h
  cases i
  case ldB x => cases h; exact memOk_memWrite (memOk_memWrite (memOk_memWrite hm _ _) _ _) _ _
  case storeRegs x => cases h; exact memOk_storeRegsUpTo hm _
  all_goals exact memOk_of_eq hm ((congrArg State.mem (exec_frame h)).trans rfl) hc

theorem exec_dirtyOk (hd : s.dirtyOk) (h : exec i s = .next t) : t.dirtyOk := by
  have hp := exec_prev h
  cases i
  case cls => cases h; exact fun _ => rfl
  case drw x y n => cases h; exact fun _ => rfl
  all_goals
    obtain ⟨hdisp, hdirty⟩ := exec_disp_dirty h nofun nofun
    unfold State.dirtyOk
    rwa [hdisp, hp, hdirty]

theorem exec_dataOk (hs : s.DataOk) (h : exec i s = .next t) : t.DataOk where
  config := by rw [exec_cfg h]; exact hs.config
  stack := exec_stackOk hs.stack h
  mem := exec_memOk hs.mem h
  dirty := exec_dirtyOk hs.dirty h

/-! ### How a step ends -/

/-- With no instruction time left to run and no ROM admitted, the machine may have any status and any report. -/
theorem State.DataOk.inv_of_event (h : s.DataOk) (hi : s.accI = 0) (ht : s.accT ≤ periodT s.cfg) (hl : s.loadable = false) : s.Inv :=
  h.inv ⟨hi ▸ Nat.zero_le _, ht, .inl hi⟩ ⟨fun _ => ⟨hi, hl⟩, fun _ _ _ => ⟨hi, hl⟩⟩

/-- Taking the smaller accumulator from both leaves one of them 0 (R241, R243). -/
theorem inv_sleepUntilNext (h : s.DataOk) (hr : s.status = .running) (hi : s.accI ≤ periodI s.cfg) (ht : s.accT ≤ periodT s.cfg) :
    s.sleepUntilNext.Inv := by
  refine State.DataOk.inv ⟨h.config, h.stack, h.mem, h.dirty⟩ ⟨?_, ?_, ?_⟩ ⟨fun hn => absurd hr hn, nofun⟩
  · exact (Nat.sub_le _ _).trans hi
  · exact (Nat.sub_le _ _).trans ht
  · simp only [sleepUntilNext_accI, sleepUntilNext_accT]; omega

theorem dataOk_timerEvent (h : s.DataOk) : s.timerEvent.DataOk := by
  unfold State.timerEvent
  split
  · exact ⟨h.config, h.stack, h.mem, h.dirty⟩
  · exact h

theorem timerEvent_accT_le (ht : s.accT ≤ periodT s.cfg) : s.timerEvent.accT ≤ periodT s.cfg := by
  rw [timerEvent_accT]
  split
  · exact le_rfl
  · exact ht

/-- The second and third parts of a step, whatever its first part was (R241). -/
theorem inv_timerEvent_sleepUntilNext (h : s.DataOk) (hr : s.status = .running) (hi : s.accI ≤ periodI s.cfg)
    (ht : s.accT ≤ periodT s.cfg) : s.timerEvent.sleepUntilNext.Inv := by
  refine inv_sleepUntilNext (dataOk_timerEvent h) ?_ ?_ ?_
  · simpa using hr
  · simpa using hi
  · rw [timerEvent_cfg]; exact timerEvent_accT_le ht

theorem inv_completeStep (h : s.DataOk) (hr : s.status = .running) (ht : s.accT ≤ periodT s.cfg) : s.completeStep.Inv :=
  inv_timerEvent_sleepUntilNext (s := { s with accI := periodI s.cfg }) ⟨h.config, h.stack, h.mem, h.dirty⟩ hr le_rfl ht

theorem inv_afterInstruction (h : s.DataOk) (hi : s.accI = 0) (ht : s.accT ≤ periodT s.cfg) (hl : s.loadable = false) :
    s.afterInstruction.Inv := by
  obtain ⟨e, -, he⟩ | ⟨x, -, he⟩ | ⟨-, -, he⟩ | ⟨hr, -, he⟩ := afterInstruction_cases s <;> rw [he]
  · exact State.DataOk.inv_of_event ⟨h.config, h.stack, h.mem, h.dirty⟩ hi ht hl
  · exact State.DataOk.inv_of_event ⟨h.config, h.stack, h.mem, h.dirty⟩ hi ht hl
  · exact h.inv_of_event hi ht hl
  · exact inv_completeStep h hr ht

theorem executeOne_keeps {u : State} (hs : s.DataOk) (h : s.executeOne = .next u) :
    u.DataOk ∧ u.accI = s.accI ∧ u.accT = s.accT ∧ u.cfg = s.cfg ∧ u.loadable = s.loadable := by
  obtain ⟨i, -, hx⟩ | ⟨_, -, rfl⟩ := executeOne_cases h
  · exact ⟨exec_dataOk hs hx, exec_accI hx, exec_accT hx, exec_cfg hx, exec_loadable hx⟩
  · exact ⟨⟨hs.config, hs.stack, hs.mem, hs.dirty⟩, rfl, rfl, rfl, rfl⟩

theorem inv_schedStep (h : s.Inv) (hr : s.status = .running) (hx : s.schedStep = .next t) : t.Inv := by
  have hb : s.beginStep.DataOk := ⟨h.config, h.stack, h.mem, h.dirty⟩
  obtain ⟨hi, ht, -⟩ := h.acc
  obtain ⟨hz, u, hu, rfl⟩ | ⟨-, rfl⟩ := schedStep_cases hx
  · obtain ⟨hd, hi', ht', hc, hl⟩ := executeOne_keeps hb hu
    exact inv_afterInstruction hd (hi'.trans hz) (by rw [ht', hc]; exact ht) hl
  · exact inv_timerEvent_sleepUntilNext hb hr hi ht

/-! ### The host's actions -/

theorem inv_keyEvent (h : s.Inv) (e : KeyEvent) : (s.keyEvent e).Inv := by
  obtain ⟨-, ht, -⟩ := h.acc
  obtain ⟨x, k, hw, -, he⟩ | ⟨x, hw, -, he⟩ | ⟨-, he⟩ := keyEvent_cases s e <;> rw [he]
  · exact inv_completeStep (s := s.endWait x k) ⟨h.config, h.stack, h.mem, h.dirty⟩ rfl ht
  · obtain ⟨hi, hl⟩ := h.event.1 (by simp [hw])
    exact State.DataOk.inv_of_event ⟨h.config, h.stack, h.mem, h.dirty⟩ hi ht hl
  · exact h

theorem inv_waitTurn (h : s.Inv) : s.waitTurn.Inv := by
  have hd : State.Inv { s with draws := s.draws + 1 } := ⟨h.config, h.stack, h.mem, h.acc, h.dirty, h.event⟩
  obtain he | ⟨e, he⟩ := waitTurn_cases s <;> rw [he]
  · exact hd
  · exact inv_keyEvent hd e

theorem inv_hostStep (h : s.Inv) (hx : s.hostStep = .next t) : t.Inv := by
  unfold State.hostStep at hx
  split at hx
  · exact inv_schedStep h ‹_› hx
  · cases hx; exact h
  · cases hx

theorem inv_redraw (h : s.Inv) : s.redraw.Inv := by
  unfold State.redraw
  split
  · exact ⟨h.config, h.stack, h.mem, h.acc, fun hne => absurd rfl hne, h.event⟩
  · exact h

theorem inv_haltOnInputFailure (h : s.Inv) (hx : s.haltOnInputFailure = .next t) : t.Inv := by
  unfold State.haltOnInputFailure at hx
  split at hx
  · cases hx
    obtain ⟨-, ht, -⟩ := h.acc
    obtain ⟨hi, hl⟩ := h.event.2 _ _ ‹_›
    exact State.DataOk.inv_of_event ⟨h.config, h.stack, h.mem, h.dirty⟩ hi ht hl
  · cases hx

theorem memWriteList_eq (s : State) (a : Nat) (bs : List Byte) :
    s.memWriteList a bs = { s with mem := (s.memWriteList a bs).mem } := by
  induction bs generalizing s a with
  | nil => rfl
  | cons b bs ih => rw [State.memWriteList, ih]; rfl

theorem inv_loadRom {rom : List Byte} (h : s.Inv) (hx : s.loadRom rom = .next t) : t.Inv := by
  unfold State.loadRom at hx
  split at hx
  · cases hx
  · split at hx
    · cases hx
    · cases hx
      have hm := memOk_memWriteList h.mem s.cfg.programOrigin rom
      rw [memWriteList_eq] at hm ⊢
      exact ⟨h.config, h.stack, hm, h.acc, h.dirty,
        fun hn => ⟨(h.event.1 hn).1, rfl⟩, fun w p e => ⟨(h.event.2 w p e).1, rfl⟩⟩

theorem inv_resetUnder {c : Config} (hc : c.valid = true) : (s.resetUnder c).Inv where
  config := hc
  stack := ⟨List.length_replicate, Nat.zero_le _⟩
  mem := memOk_resetWith c
  acc := ⟨Nat.zero_le _, Nat.zero_le _, .inl rfl⟩
  dirty := fun hne => absurd rfl hne
  event := ⟨fun hn => absurd rfl hn, nofun⟩

theorem inv_boot {c : Config} (hx : s.boot c = .next t) : t.Inv := by
  unfold State.boot at hx
  split at hx
  · cases hx; exact inv_resetUnder ‹_›
  · cases hx

theorem inv_initialise {w : HostWrite} (h : s.Inv) (hw : w.owes s) (hx : s.initialise w = .next t) : t.Inv := by
  obtain ⟨hr, hi, hin, rfl⟩ := initialise_cases hx
  obtain ⟨hlen, hsp⟩ := h.stack
  obtain ⟨hai, hat, -⟩ := h.acc
  have he : ∀ w p, s.report ≠ .inputFailure w p := by simp [hi]
  cases w
  case mem a b => exact ⟨h.config, h.stack, memOk_memWrite h.mem a b, h.acc, h.dirty, h.event⟩
  case slot k v => exact ⟨h.config, ⟨(List.length_set ..).trans hlen, hsp⟩, h.mem, h.acc, h.dirty, h.event⟩
  case sp n => exact ⟨h.config, ⟨hlen, of_decide_eq_true hin⟩, h.mem, h.acc, h.dirty, h.event⟩
  case accI n =>
    exact ⟨h.config, h.stack, h.mem, ⟨of_decide_eq_true hin, hat, hw⟩, h.dirty, fun hn => absurd hr hn,
      fun w p e => absurd e (he w p)⟩
  case accT n => exact ⟨h.config, h.stack, h.mem, ⟨hai, of_decide_eq_true hin, hw⟩, h.dirty, h.event⟩
  case disp | prev | dirty => exact ⟨h.config, h.stack, h.mem, h.acc, hw, h.event⟩
  case status x =>
    exact ⟨h.config, h.stack, h.mem, h.acc, h.dirty, fun hn => ⟨hw hn, rfl⟩, fun w p e => absurd e (he w p)⟩
  all_goals exact ⟨h.config, h.stack, h.mem, h.acc, h.dirty, h.event⟩

theorem inv_act {a : HostAction} (h : s.Inv) (ha : ∀ w, a = .initialise w → w.owes s) (hx : s.act a = .next t) : t.Inv := by
  cases a
  case step => exact inv_hostStep h hx
  case keyPress k => cases hx; exact inv_keyEvent h _
  case keyFailure => cases hx; exact inv_keyEvent h _
  case redraw => cases hx; exact inv_redraw h
  case haltOnInputFailure => exact inv_haltOnInputFailure h hx
  case load rom => exact inv_loadRom h hx
  case reset => cases hx; exact inv_resetUnder h.config
  case boot c => exact inv_boot hx
  case initialise w => exact inv_initialise h (ha w rfl) hx

/-- What a host owes does not depend on what it lists next. -/
theorem owes_with_actions {w : HostWrite} {as : List HostAction} (h : w.owes s) : w.owes { s with actions := as } := by
  cases w <;> exact h

/-- Settles O20: a step is a host action, a turn of a key wait or a scheduler step, and each keeps the invariant; of an initialisation
the host's debt is the clause it could break. -/
theorem stepKeepsInvariant : Obligations.StepKeepsInvariant := by
  intro s t h howes hx
  obtain ⟨a, rest, ha, hact⟩ | ⟨-, -, rfl⟩ | ⟨-, hr, hs⟩ := step_cases hx
  · refine inv_act (s := { s with actions := rest }) ⟨h.config, h.stack, h.mem, h.acc, h.dirty, h.event⟩ ?_ hact
    rintro w rfl
    exact owes_with_actions (howes w (by simp [ha]))
  · exact inv_waitTurn h
  · exact inv_schedStep h hr hs

end Sys2Proof.Machine
end

section
/-! Obligations about memory: which bytes an instruction stores, and that the next fetch reads a stored byte. -/

namespace Sys2Proof.Machine

variable {s t : State} {i : Instr}

/-- A read depends on the physical address only (R52). -/
theorem memRead_eq_of_physAddr_eq (s : State) {a b : Nat} (h : physAddr a = physAddr b) : s.memRead a = s.memRead b := by
  rw [State.memRead, h, State.memRead]

/-! ### The bytes that an instruction stores -/

/-- `LD B` keeps every byte but the three at `I` (R163). -/
theorem memRead_ldB_outside {x : Reg} {a : Nat} (hm : s.memOk) (h : exec (.ldB x) s = .next t)
    (ha : ∀ k, k < 3 → physAddr a ≠ physAddr (s.indexAddr k)) : t.memRead a = s.memRead a := by
  cases h
  have hm₁ := memOk_memWrite hm (s.indexAddr 0) (hundredsDigit (s.readV x))
  have hm₂ := memOk_memWrite hm₁ (s.indexAddr 1) (tensDigit (s.readV x))
  rw [advance_memRead, memRead_memWrite_ne hm₂ (ha 2 (by decide)), memRead_memWrite_ne hm₁ (ha 1 (by decide)),
    memRead_memWrite_ne hm (ha 0 (by decide))]

/-- An instruction other than `LD B` and `LD [I]` stores nothing (R51). -/
theorem exec_mem (h : exec i s = .next t) (hb : ∀ x, i ≠ .ldB x) (hs : ∀ x, i ≠ .storeRegs x) : t.mem = s.mem := by
  cases i
  case ldB x => exact absurd rfl (hb x)
  case storeRegs x => exact absurd rfl (hs x)
  all_goals exact (congrArg State.mem (exec_frame h)).trans rfl

/-- Settles O57: the two instructions that store keep every byte outside their window, and the frame of the others keeps memory. -/
theorem onlyStoredBytesChange : Obligations.OnlyStoredBytesChange := by
  intro i s t a hm h ha
  cases i
  case ldB x => exact memRead_ldB_outside hm h ha
  case storeRegs x => cases h; exact memRead_storeRegsUpTo_outside hm _ a ha
  all_goals exact memRead_congr (exec_mem h nofun nofun) (exec_cfg h) a

/-! ### The fetch of a stored byte -/

/-- Byte `q` of the dump that `LD [I], Vx` makes (R164). -/
theorem memRead_storeRegs {x q : Reg} (hm : s.memOk) (hq : q ≤ x) (h : exec (.storeRegs x) s = .next t) :
    t.memRead (s.indexAddr q.val) = s.readV q := by
  cases h
  rw [advance_memRead, memRead_storeRegsUpTo hm _ x.isLt _ (Nat.lt_succ_of_le hq), Fin.ofNat_val_eq_self]

/-- Settles O49: the fetch's high byte is a read at `pc`, whose physical address is that of the stored byte. -/
theorem storedByteIsFetched : Obligations.StoredByteIsFetched := by
  intro x q s t u hm hq h hmem hcfg hpc
  have hhi : u.memRead u.pc.toNat = s.readV q := calc
    u.memRead u.pc.toNat = u.memRead (s.indexAddr q.val) := memRead_eq_of_physAddr_eq u hpc
    _ = t.memRead (s.indexAddr q.val) := memRead_congr hmem hcfg _
    _ = s.readV q := memRead_storeRegs hm hq h
  exact ⟨u.memRead (u.pc.toNat + 1), congrArg (wordOfBytes · _) hhi⟩

end Sys2Proof.Machine
end

section
/-! Encoding and decoding: the round trips and the rows of the opcode table. -/

namespace Sys2Proof.Laws.TableRow

/-- Every instruction's encoding lies in its row. -/
theorem encode_and_mask : ∀ i : Instr, Statement i
  | .sys nnn => sys nnn | .cls => cls | .ret => ret | .jp nnn => jp nnn | .call nnn => call nnn
  | .seImm x kk => seImm x kk | .sneImm x kk => sneImm x kk | .seReg x y => seReg x y | .sneReg x y => sneReg x y
  | .ldImm x kk => ldImm x kk | .addImm x kk => addImm x kk | .ldReg x y => ldReg x y | .orReg x y => orReg x y
  | .andReg x y => andReg x y | .xorReg x y => xorReg x y | .addReg x y => addReg x y | .sub x y => sub x y | .shr x => shr x
  | .subn x y => subn x y | .shl x => shl x | .ldI nnn => ldI nnn | .jpV0 nnn => jpV0 nnn | .rnd x kk => rnd x kk
  | .drw x y n => drw x y n | .skp x => skp x | .sknp x => sknp x | .ldVxDt x => ldVxDt x | .ldVxK x => ldVxK x
  | .ldDtVx x => ldDtVx x | .ldStVx x => ldStVx x | .addI x => addI x | .ldF x => ldF x | .ldB x => ldB x
  | .storeRegs x => storeRegs x | .loadRegs x => loadRegs x

/-- The mask of a whole 4-bit field. -/
theorem and_nibble (b : Nibble) : b &&& 0xF = b := BitVec.and_allOnes

/-- Of a word of format `XYN`, what a mask of `y` and `n` leaves. -/
theorem mask_yn (t : Nibble) (x y : Reg) (n my mn : Nibble) :
    wordXYN t x y n &&& wordXYN 0xF 15 (regOfBits my) mn = wordXYN t x (regOfBits (bitsOfReg y &&& my)) (n &&& mn) := by
  have hx : bitsOfReg 15 = 0xF := rfl
  simp only [wordXYN, bitsOfReg_regOfBits]
  rw [BitVec.and_append, BitVec.and_append, BitVec.and_append, hx, and_nibble, and_nibble]

/-- Bits of a word whose `n` is ignored (R82). -/
theorem mask_ignored_n (t : Nibble) (x y : Reg) (n : Nibble) : wordXYN t x y n &&& 0xFFF0 = wordXYN t x y 0 :=
  (mask_yn t x y n 0xF 0x0).trans (by rw [and_nibble]; simp)

/-- Bits of a word whose `y` is ignored (R82). -/
theorem mask_ignored_y (t : Nibble) (x y : Reg) (n : Nibble) : wordXYN t x y n &&& 0xFF0F = wordXYN t x 0 n :=
  (mask_yn t x y n 0x0 0xF).trans (by rw [and_nibble]; simp [regOfBits])

end Sys2Proof.Laws.TableRow

namespace Sys2Proof.Machine

open Sys2Proof.Laws

variable {w w' : Word} {i : Instr}

/-! ### The primary dispatch, for the types that have a secondary one (R76) -/

theorem decode_type0 (h : typeField w = 0x0) : decode w = .instr (decodeType0 w) := by simp [decode, h]

theorem decode_type8 (h : typeField w = 0x8) : decode w = decodeType8 w := by simp [decode, h]

theorem decode_typeE (h : typeField w = 0xE) : decode w = decodeTypeE w := by simp [decode, h]

theorem decode_typeF (h : typeField w = 0xF) : decode w = decodeTypeF w := by simp [decode, h]

theorem decodeType0_cases (w : Word) :
    (nnnField w = 0x0E0 ∧ decodeType0 w = .cls) ∨ (nnnField w = 0x0EE ∧ decodeType0 w = .ret) ∨
    ((Instr.sys (nnnField w)).wf = true ∧ decodeType0 w = .sys (nnnField w)) := by
  by_cases hcls : nnnField w = 0x0E0
  · exact .inl ⟨hcls, if_pos hcls⟩
  · by_cases hret : nnnField w = 0x0EE
    · exact .inr (.inl ⟨hret, (if_neg hcls).trans (if_pos hret)⟩)
    · exact .inr (.inr ⟨by simp_all [Instr.wf], (if_neg hcls).trans (if_neg hret)⟩)

/-! ### From an instruction to its word and back -/

theorem decode_encode_sys {nnn : Addr} (hw : (Instr.sys nnn).wf = true) : decode (encode (.sys nnn)) = .instr (.sys nnn) := by
  obtain ⟨hcls, hret⟩ : nnn ≠ 0x0E0 ∧ nnn ≠ 0x0EE := by simpa [Instr.wf] using hw
  rw [encode, decode_type0 (typeField_wordNNN 0x0 nnn), decodeType0, nnnField_wordNNN, if_neg hcls, if_neg hret]

/-- The dispatch on the word's type, and on its secondary code, finds every operand where the encoder put it. -/
theorem decode_encode (hw : i.wf = true) : decode (encode i) = .instr i := by
  cases i
  case sys nnn => exact decode_encode_sys hw
  case cls | ret => rfl
  case ldReg | orReg | andReg | xorReg | addReg | sub | shr | subn | shl => simp [encode, decode_type8, decodeType8]
  case skp | sknp => simp [encode, decode_typeE, decodeTypeE]
  case ldVxDt | ldVxK | ldDtVx | ldStVx | addI | ldF | ldB | storeRegs | loadRegs => simp [encode, decode_typeF, decodeTypeF]
  all_goals simp [encode, decode]

/-- Settles O1: every operand is a field of the word, and the dispatch reads it back. -/
theorem decodeOfEncodeIsInstruction : Obligations.DecodeOfEncodeIsInstruction := fun _ hw => decode_encode hw

/-! ### From a word to its instruction and back -/

/-- The word stands for the instruction, up to the bits that the instruction ignores (R82). -/
def StandsFor (w : Word) (i : Instr) : Prop := i.wf = true ∧ encode i = w &&& significantBits i

/-- The mask of a whole word. -/
theorem and_all (w : Word) : w &&& 0xFFFF = w := BitVec.and_allOnes

section

variable {t n : Nibble} {kk : Byte} {nnn : Addr} (ht : (typeField w).toNat = t.toNat)
include ht

theorem wordNNN_of_type (hn : nnnField w = nnn) : wordNNN t nnn = w &&& 0xFFFF := by
  rw [← BitVec.eq_of_toNat_eq ht, ← hn, wordNNN_fields, and_all]

theorem wordXKK_of_type (hk : kkField w = kk) : wordXKK t (xReg w) kk = w &&& 0xFFFF := by
  rw [← BitVec.eq_of_toNat_eq ht, ← hk, wordXKK_fields, and_all]

theorem wordXYN_of_type (hn : (nField w).toNat = n.toNat) : wordXYN t (xReg w) (yReg w) n = w &&& 0xFFFF := by
  rw [← BitVec.eq_of_toNat_eq ht, ← BitVec.eq_of_toNat_eq hn, wordXYN_fields, and_all]

theorem wordXYN_ignored_n : wordXYN t (xReg w) (yReg w) 0 = w &&& 0xFFF0 := by
  rw [← BitVec.eq_of_toNat_eq ht, ← TableRow.mask_ignored_n _ _ _ (nField w), wordXYN_fields]

theorem wordXYN_ignored_y (hn : (nField w).toNat = n.toNat) : wordXYN t (xReg w) 0 n = w &&& 0xFF0F := by
  rw [← BitVec.eq_of_toNat_eq ht, ← BitVec.eq_of_toNat_eq hn, ← TableRow.mask_ignored_y _ _ (yReg w), wordXYN_fields]

end

theorem standsFor_decodeType0 (ht : (typeField w).toNat = 0x0) : StandsFor w (decodeType0 w) := by
  obtain ⟨hn, hd⟩ | ⟨hn, hd⟩ | ⟨hw, hd⟩ := decodeType0_cases w <;> rw [hd]
  · exact ⟨rfl, wordNNN_of_type (t := 0x0) ht hn⟩
  · exact ⟨rfl, wordNNN_of_type (t := 0x0) ht hn⟩
  · exact ⟨hw, wordNNN_of_type ht rfl⟩

theorem standsFor_decodeType8 (ht : (typeField w).toNat = 0x8) (h : decodeType8 w = .instr i) : StandsFor w i := by
  unfold decodeType8 at h
  split at h <;> cases h
  case h_7 hn | h_9 hn => exact ⟨rfl, wordXYN_ignored_y ht hn⟩
  all_goals exact ⟨rfl, wordXYN_of_type ht ‹_›⟩

theorem standsFor_decodeTypeE (ht : (typeField w).toNat = 0xE) (h : decodeTypeE w = .instr i) : StandsFor w i := by
  unfold decodeTypeE at h
  split_ifs at h <;> cases h <;> exact ⟨rfl, wordXKK_of_type ht ‹_›⟩

theorem standsFor_decodeTypeF (ht : (typeField w).toNat = 0xF) (h : decodeTypeF w = .instr i) : StandsFor w i := by
  unfold decodeTypeF at h
  split_ifs at h <;> cases h <;> exact ⟨rfl, wordXKK_of_type ht ‹_›⟩

/-- A word of none of the types below 0xF has type 0xF: the last arm of the primary dispatch (R76). -/
theorem typeField_eq_F (h : ∀ k < 15, (typeField w).toNat ≠ k) : typeField w = 0xF := by
  have hge : 15 ≤ (typeField w).toNat := Nat.le_of_not_lt fun hl => h _ hl rfl
  exact BitVec.eq_of_toNat_eq (Nat.le_antisymm (Nat.le_of_lt_succ (typeField w).isLt) hge)

/-- Each arm of the primary dispatch reads the fields that the encoder puts together. -/
theorem standsFor_of_decode (h : decode w = .instr i) : StandsFor w i := by
  unfold decode at h
  split at h
  case h_1 ht => cases h; exact standsFor_decodeType0 ht
  case h_9 ht => exact standsFor_decodeType8 ht h
  case h_15 ht => exact standsFor_decodeTypeE ht h
  case h_16 =>
    have ht := typeField_eq_F (w := w) fun k hk => by interval_cases k <;> assumption
    exact standsFor_decodeTypeF (congrArg BitVec.toNat ht) h
  case h_2 ht | h_3 ht | h_11 ht | h_12 ht => cases h; exact ⟨rfl, wordNNN_of_type ht rfl⟩
  case h_6 ht | h_10 ht => cases h; exact ⟨rfl, wordXYN_ignored_n ht⟩
  case h_14 ht => cases h; exact ⟨rfl, wordXYN_of_type ht rfl⟩
  all_goals cases h; exact ⟨rfl, wordXKK_of_type ‹_› rfl⟩

/-- Settles O2: what each arm of the decoder builds, the encoder puts together again from the word's fields. -/
theorem decodedWordEncodesBack : Obligations.DecodedWordEncodesBack := fun _ _ h => standsFor_of_decode h

/-! ### The rows of the opcode table -/

/-- A row's mask covers no bit that the instruction ignores. -/
theorem significantBits_and_mask (i : Instr) : significantBits i &&& i.row.mask = i.row.mask := by
  cases i
  all_goals
    dsimp only [significantBits, Instr.row]
    decide

theorem meets_row_of_decode (h : decode w = .instr i) : w &&& i.row.mask = i.row.value := by
  obtain ⟨hw, he⟩ := standsFor_of_decode h
  rw [← TableRow.encode_and_mask i hw, he, BitVec.and_assoc, significantBits_and_mask]

/-- Words that agree under the mask of the type have the same type. -/
theorem typeField_of_mask_eq (h : w &&& 0xF000 = w' &&& 0xF000) : typeField w = typeField w' := by
  rw [← wordNNN_fields w, ← wordNNN_fields w', TableRow.mask_NNN, TableRow.mask_NNN] at h
  simpa using congrArg typeField h

theorem nField_of_mask_eq (h : w &&& 0xF00F = w' &&& 0xF00F) : typeField w = typeField w' ∧ nField w = nField w' := by
  rw [← wordXYN_fields w, ← wordXYN_fields w', TableRow.mask_XY, TableRow.mask_XY] at h
  exact ⟨by simpa using congrArg typeField h, by simpa using congrArg nField h⟩

theorem kkField_of_mask_eq (h : w &&& 0xF0FF = w' &&& 0xF0FF) : typeField w = typeField w' ∧ kkField w = kkField w' := by
  rw [← wordXKK_fields w, ← wordXKK_fields w', TableRow.mask_X, TableRow.mask_X] at h
  exact ⟨by simpa using congrArg typeField h, by simpa using congrArg kkField h⟩

theorem wf_of_ne_sys (hs : ∀ nnn, i ≠ .sys nnn) : i.wf = true := by
  cases i
  case sys nnn => exact absurd rfl (hs nnn)
  all_goals rfl

/-- A word in a row other than that of `SYS` has the type and the secondary code of the row's encodings,
so that the decoder takes the same arm. -/
theorem decode_of_meets_row (h : w &&& i.row.mask = i.row.value) (hs : ∀ nnn, i ≠ .sys nnn) :
    ∃ j, decode w = .instr j ∧ j.row = i.row := by
  have h := h.trans (TableRow.encode_and_mask i (wf_of_ne_sys hs)).symm
  cases i
  case sys => exact absurd rfl (hs _)
  case cls | ret => exact ⟨_, congrArg decode ((and_all w).symm.trans h), rfl⟩
  case ldReg | orReg | andReg | xorReg | addReg | sub | shr | subn | shl =>
    obtain ⟨ht, hn⟩ := nField_of_mask_eq h
    simp only [encode, typeField_wordXYN, nField_wordXYN] at ht hn
    simp [decode_type8 ht, decodeType8, hn, Instr.row]
  case skp | sknp =>
    obtain ⟨ht, hk⟩ := kkField_of_mask_eq h
    simp only [encode, typeField_wordXKK, kkField_wordXKK] at ht hk
    simp [decode_typeE ht, decodeTypeE, hk, Instr.row]
  case ldVxDt | ldVxK | ldDtVx | ldStVx | addI | ldF | ldB | storeRegs | loadRegs =>
    obtain ⟨ht, hk⟩ := kkField_of_mask_eq h
    simp only [encode, typeField_wordXKK, kkField_wordXKK] at ht hk
    simp [decode_typeF ht, decodeTypeF, hk, Instr.row]
  all_goals
    have ht := typeField_of_mask_eq h
    simp only [encode, typeField_wordNNN, typeField_wordXKK, typeField_wordXYN] at ht
    simp [decode, ht, Instr.row]

theorem decode_of_meets_row_sys {nnn : Addr} (h : w &&& (Instr.sys nnn).row.mask = (Instr.sys nnn).row.value) :
    ∃ j, decode w = .instr j ∧ (j.row = (Instr.sys nnn).row ∨ j = .cls ∨ j = .ret) := by
  have ht : typeField w = typeField 0 := typeField_of_mask_eq h
  refine ⟨_, decode_type0 ht, ?_⟩
  obtain ⟨-, hd⟩ | ⟨-, hd⟩ | ⟨-, hd⟩ := decodeType0_cases w
  · exact .inr (.inl hd)
  · exact .inr (.inr hd)
  · exact .inl (by rw [hd]; rfl)

/-- Settles O3: the row's mask and match are those of the encoding, and a word in the row takes the decoder's arm of that encoding. -/
theorem wordDecodesByItsTableRow : Obligations.WordDecodesByItsTableRow := by
  refine ⟨fun _ _ => meets_row_of_decode, fun w i h => ?_⟩
  by_cases hs : ∃ nnn, i = .sys nnn
  · obtain ⟨nnn, rfl⟩ := hs
    obtain ⟨j, hj, hr⟩ := decode_of_meets_row_sys h
    exact ⟨j, hj, hr.imp_right fun hr => ⟨⟨nnn, rfl⟩, hr⟩⟩
  · obtain ⟨j, hj, hr⟩ := decode_of_meets_row h (not_exists.1 hs)
    exact ⟨j, hj, .inl hr⟩

/-- Settles O5: twelve closed words, on which the decoder evaluates. -/
theorem sampleWordsDecode : Obligations.SampleWordsDecode := by
  unfold Obligations.SampleWordsDecode
  decide

end Sys2Proof.Machine
end

section
/-! The illegal words: which they are, how many, and what executing one does (R83). -/

namespace Sys2Proof.Machine

variable {w : Word}

theorem isIllegal_iff : isIllegal w = true ↔ ∃ why, decode w = .illegal why := by
  unfold isIllegal
  cases decode w <;> simp

/-! ### Type by type -/

/-- The secondary codes of type 8 that no instruction has (R78). -/
abbrev unusedAluCodes : List Nibble := [0x8, 0x9, 0xA, 0xB, 0xC, 0xD, 0xF]

/-- The secondary codes of type E (R79). -/
abbrev keyCodes : List Byte := [0x9E, 0xA1]

/-- The secondary codes of type F (R80). -/
abbrev miscCodes : List Byte := [0x07, 0x0A, 0x15, 0x18, 0x1E, 0x29, 0x33, 0x55, 0x65]

theorem isIllegal_type8 (ht : typeField w = 0x8) : isIllegal w = decide (nField w ∈ unusedAluCodes) := by
  rw [isIllegal, decode_type8 ht, decodeType8]
  obtain ⟨k, hk⟩ := nField w
  interval_cases k <;> rfl

theorem isIllegal_typeE (ht : typeField w = 0xE) : isIllegal w = decide (kkField w ∉ keyCodes) := by
  rw [isIllegal, decode_typeE ht, decodeTypeE]
  split_ifs <;> simp_all

theorem isIllegal_typeF (ht : typeField w = 0xF) : isIllegal w = decide (kkField w ∉ miscCodes) := by
  rw [isIllegal, decode_typeF ht, decodeTypeF]
  split_ifs <;> simp_all

theorem typeField_of_illegal {why : Illegal} (h : decode w = .illegal why) :
    typeField w = 0x8 ∨ typeField w = 0xE ∨ typeField w = 0xF := by
  unfold decode at h
  split at h
  case h_9 ht => exact .inl (BitVec.eq_of_toNat_eq ht)
  case h_15 ht => exact .inr (.inl (BitVec.eq_of_toNat_eq ht))
  case h_16 => exact .inr (.inr (typeField_eq_F fun k hk => by interval_cases k <;> assumption))
  all_goals cases h

theorem isIllegal_iff_listed : isIllegal w = true ↔
    (typeField w = 0x8 ∧ nField w ∈ unusedAluCodes) ∨ (typeField w = 0xE ∧ kkField w ∉ keyCodes) ∨
    (typeField w = 0xF ∧ kkField w ∉ miscCodes) := by
  constructor
  · intro h
    obtain ⟨why, hd⟩ := isIllegal_iff.1 h
    obtain ht | ht | ht := typeField_of_illegal hd
    · exact .inl ⟨ht, of_decide_eq_true ((isIllegal_type8 ht).symm.trans h)⟩
    · exact .inr (.inl ⟨ht, of_decide_eq_true ((isIllegal_typeE ht).symm.trans h)⟩)
    · exact .inr (.inr ⟨ht, of_decide_eq_true ((isIllegal_typeF ht).symm.trans h)⟩)
  · rintro (⟨ht, hn⟩ | ⟨ht, hk⟩ | ⟨ht, hk⟩)
    · exact (isIllegal_type8 ht).trans (decide_eq_true hn)
    · exact (isIllegal_typeE ht).trans (decide_eq_true hk)
    · exact (isIllegal_typeF ht).trans (decide_eq_true hk)

/-! ### How many -/

section

variable {n : Nat} {codes : List (BitVec n)}

/-- All codes of a width, in ascending order. -/
def allCodes (n : Nat) : List (BitVec n) := (List.range (2 ^ n)).map (BitVec.ofNat n)

theorem nodup_allCodes : (allCodes n).Nodup := by
  refine List.nodup_range.map_on fun a ha b hb h => ?_
  simpa [Nat.mod_eq_of_lt, List.mem_range.1 ha, List.mem_range.1 hb] using congrArg BitVec.toNat h

theorem mem_allCodes (b : BitVec n) : b ∈ allCodes n := List.mem_map.2 ⟨b.toNat, List.mem_range.2 b.isLt, by simp⟩

/-- As many codes lie in a list without repetition as it has entries. -/
theorem countP_range_mem (hc : codes.Nodup) :
    ((List.range (2 ^ n)).countP fun k => decide (BitVec.ofNat n k ∈ codes)) = codes.length := by
  have hperm : List.Perm ((allCodes n).filter (· ∈ codes)) codes :=
    (List.perm_ext_iff_of_nodup (nodup_allCodes.filter _) hc).2 fun b => by simp [mem_allCodes]
  rw [← hperm.length_eq, ← List.countP_eq_length_filter, allCodes, List.countP_map]
  rfl

/-- The other codes lie outside the list. -/
theorem countP_range_notMem (hc : codes.Nodup) :
    ((List.range (2 ^ n)).countP fun k => decide (BitVec.ofNat n k ∉ codes)) = 2 ^ n - codes.length := by
  have h := List.length_eq_countP_add_countP (l := List.range (2 ^ n)) fun k => decide (BitVec.ofNat n k ∈ codes)
  rw [countP_range_mem hc, List.length_range] at h
  simp only [decide_eq_true_eq] at h
  omega

end

/-! ### Executing one -/

theorem executeOne_illegal {s : State} (h : isIllegal s.fetch = true) :
    s.executeOne = .next (s.raise (.decodeError s.fetch s.pc)) := by
  obtain ⟨why, hd⟩ := isIllegal_iff.1 h
  rw [State.executeOne, hd]

/-- Settles O4: type by type, the secondary codes outside the decoder's arms, and the error that they take. -/
theorem illegalWordsAreExactlyListed : Obligations.IllegalWordsAreExactlyListed := by
  refine ⟨fun w => isIllegal_iff_listed, fun x y => ?_, fun x => ?_, fun x => ?_, fun s => executeOne_illegal⟩
  · simp only [isIllegal_type8 (typeField_wordXYN ..), nField_wordXYN]
    exact countP_range_mem (n := 4) (by decide)
  · simp only [isIllegal_typeE (typeField_wordXKK ..), kkField_wordXKK]
    exact countP_range_notMem (n := 8) (codes := keyCodes) (by decide)
  · simp only [isIllegal_typeF (typeField_wordXKK ..), kkField_wordXKK]
    exact countP_range_notMem (n := 8) (codes := miscCodes) (by decide)

end Sys2Proof.Machine
end

section
/-! A scheduler step whose instruction event is due performs the instruction at `pc`, whichever it is (R85). -/

namespace Sys2Proof.Machine

variable {s : State} {i : Instr}

/-- A guarded meaning answers a next state whichever way its guard goes. -/
theorem guarded_next {c : Prop} {_ : Decidable c} (a b : State) : ∃ t, (if c then .next a else .next b : Result) = .next t :=
  ⟨_, (apply_ite Host.Outcome.next c a b).symm⟩

theorem exec_next (i : Instr) (s : State) : ∃ t, exec i s = .next t := by
  cases i
  case ret | call | ldF | skp | sknp => exact guarded_next _ _
  all_goals exact ⟨_, rfl⟩

/-- Settles O14: the five guarded meanings answer one of two next states, the others one. -/
theorem everyInstructionAnswersNext : Obligations.EveryInstructionAnswersNext := exec_next

theorem executeOne_of_decode (h : decode s.fetch = .instr i) : s.executeOne = exec i s := by
  rw [State.executeOne, h]

/-- Settles O6: the step is due, so `ExecuteOne()` performs the decoded instruction, which answers a next state. -/
theorem stepRunsDecodedInstruction : Obligations.StepRunsDecodedInstruction := by
  intro s i ha hr hz hd
  obtain ⟨u, hu⟩ := exec_next i s.beginStep
  have hx : s.beginStep.executeOne = .next u := (executeOne_of_decode (s := s.beginStep) hd).trans hu
  rw [step_running ha hr, schedStep_event hz hx]
  have hu : exec i { s with report := .idle, loadable := false } = .next u := hu
  rw [hu]

theorem withFetchWord_toNat (s : State) (w : Word) : s.withFetchWord 16 w.toNat = s.placeInstruction w := by
  rw [State.withFetchWord, Nat.mod_eq_of_lt w.isLt, BitVec.ofNat_toNat, BitVec.setWidth_eq]

/-- Settles O7: the placed word is what is fetched, and it decodes to the instruction. -/
theorem stepRunsPlacedInstruction : Obligations.StepRunsPlacedInstruction := by
  intro s i hm hw
  rw [withFetchWord_toNat]
  have hd : decode (s.placeInstruction (encode i)).fetch = .instr i := by
    rw [fetch_placeInstruction hm, decode_encode hw]
  exact stepRunsDecodedInstruction _ i rfl rfl rfl hd

end Sys2Proof.Machine
end

section
/-! Obligations about control flow: the jumps, the call stack's two instructions, the register skips and `SYS` (`40_control_flow.md`). -/

namespace Sys2Proof.Machine

variable {s : State}

/-! ### `SYS` and the jumps -/

/-- Settles O30: every word of type 0 but those of `CLS` and `RET` is a well-formed `SYS`, and `SYS` is `advance`. -/
theorem sysOnlyAdvances : Obligations.SysOnlyAdvances := by
  intro nnn s
  refine ⟨fun hcls hret => ?_, rfl⟩
  have hw : (Instr.sys nnn).wf = true := by simpa [Instr.wf] using ⟨hcls, hret⟩
  exact decode_encode_sys hw

theorem toNat_zext16 (nnn : Addr) : (zext16 nnn).toNat = nnn.toNat := BitVec.toNat_setWidth_of_le (by decide)

/-- A byte and a 12-bit literal add up to less than 65536, so the 16-bit sum is the exact one (R108). -/
theorem toNat_byte_add_zext16 (b : Byte) (nnn : Addr) : (b.setWidth 16 + zext16 nnn).toNat = b.toNat + nnn.toNat := by
  have hb : (b.setWidth 16).toNat = b.toNat := BitVec.toNat_setWidth_of_le (by decide)
  rw [BitVec.toNat_add, hb, toNat_zext16]
  exact Nat.mod_eq_of_lt (by omega)

/-- Settles O32: both jumps write `pc` only, and neither target is reduced. -/
theorem jumpsWritePc : Obligations.JumpsWritePc := by
  intro nnn s
  refine ⟨decode_encode (i := .jp nnn) rfl, decode_encode (i := .jpV0 nnn) rfl, ⟨_, rfl, rfl, ?_⟩, ⟨_, rfl, rfl, ?_⟩⟩
  · exact toNat_zext16 nnn
  · exact toNat_byte_add_zext16 (s.readV 0) nnn

/-! ### `RET` and `CALL` -/

theorem exec_ret_underflow (hs : s.sp = 0) : exec .ret s = .next (s.raise (.stackUnderflow (encode .ret) s.pc 0)) :=
  (if_pos hs).trans (by rw [hs])

theorem exec_call_overflow {nnn : Addr} (hs : s.sp = s.cfg.stackDepth) :
    exec (.call nnn) s = .next (s.raise (.stackOverflow (encode (.call nnn)) s.pc s.sp)) := if_pos hs

theorem stackSlot_eq_of_getElem? {k : Nat} {r : Word} (h : s.stack[k]? = some r) : s.stackSlot k = r := by
  rw [State.stackSlot, List.getD_eq_getElem?_getD, h, Option.getD_some]

/-- Settles O31: with an empty stack `RET` raises the underflow; otherwise it reads the slot below `SP`. -/
theorem retPopsIntoPc : Obligations.RetPopsIntoPc := by
  refine ⟨decode_encode (i := .ret) rfl, fun s hs => exec_ret_underflow hs, fun s k r hs hr => ?_⟩
  have hk : s.sp - 1 = k := by omega
  rw [exec_ret_pop (by omega), State.dropSlot, hk, stackSlot_eq_of_getElem? hr]
  rfl

/-- Settles O33: on a full stack `CALL` raises the overflow; otherwise it sets slot `SP`, which the stack has, and no other. -/
theorem callPushesReturnAddress : Obligations.CallPushesReturnAddress := by
  intro nnn s ⟨hlen, _⟩
  refine ⟨decode_encode (i := .call nnn) rfl, exec_call_overflow, fun hsp => ?_⟩
  refine ⟨_, exec_call_push hsp.ne, rfl, toNat_zext16 nnn, ?_, List.length_set, fun k hk => ?_⟩
  · exact List.getElem?_set_self (by omega)
  · exact List.getElem?_set_ne hk.symm

/-! ### The register skips -/

/-- Types 5 and 9 have no secondary dispatch: any `n` decodes alike (R81). -/
theorem decode_seReg_any_n (x y : Reg) (n : Nibble) : decode (wordXYN 0x5 x y n) = .instr (.seReg x y) := by simp [decode]

theorem decode_sneReg_any_n (x y : Reg) (n : Nibble) : decode (wordXYN 0x9 x y n) = .instr (.sneReg x y) := by simp [decode]

/-- A conditional skip writes `pc` only: two further where the condition holds (R86). -/
theorem skipIf_of_iff {c : Bool} {p : Prop} [Decidable p] (h : c = true ↔ p) (s : State) :
    s.skipIf c = { s with pc := if p then s.pc + 4 else s.pc + 2 } := by
  rw [skipIf_eq, skipIf_pc]
  simp only [h]

/-- Settles O35: each register skip is `skipIf` of its condition's truth value. -/
theorem skipsAddTwoExtra : Obligations.SkipsAddTwoExtra := by
  intro x y kk n s
  refine ⟨decode_encode (i := .seImm x kk) rfl, decode_encode (i := .sneImm x kk) rfl, decode_seReg_any_n x y n,
    decode_sneReg_any_n x y n, ?_, ?_, ?_, ?_⟩
  · exact congrArg Host.Outcome.next (skipIf_of_iff beq_iff_eq s)
  · exact congrArg Host.Outcome.next (skipIf_of_iff bne_iff_ne s)
  · exact congrArg Host.Outcome.next (skipIf_of_iff beq_iff_eq s)
  · exact congrArg Host.Outcome.next (skipIf_of_iff bne_iff_ne s)

end Sys2Proof.Machine
end

section
/-! Obligations about register load and arithmetic: what `V[x]` and the flag register end holding (`41_register_alu.md`). -/

namespace Sys2Proof.Machine

variable {s : State}

/-! ### The results and flags as numbers (R120) -/

theorem toNat_sumByte (a b : Byte) : (sumByte a b).toNat = (a.toNat + b.toNat) % 256 := BitVec.toNat_ofNat _ _

theorem toNat_diffByte (a b : Byte) : (diffByte a b).toNat = (a.toNat + 256 - b.toNat) % 256 := BitVec.toNat_ofNat _ _

theorem toNat_doubleByte (a : Byte) : (doubleByte a).toNat = a.toNat * 2 % 256 := BitVec.toNat_ofNat _ _

/-- Half a byte is a byte, so nothing is reduced (R138). -/
theorem toNat_halfByte (a : Byte) : (halfByte a).toNat = a.toNat / 2 :=
  (BitVec.toNat_ofNat _ _).trans (Nat.mod_eq_of_lt (by omega))

theorem toNat_flagByte (b : Bool) : (flagByte b).toNat = bitOf b := by cases b <;> rfl

theorem bitOf_eq_toNat (b : Bool) : bitOf b = b.toNat := by cases b <;> rfl

theorem bitOf_le_one (b : Bool) : bitOf b ≤ 1 := by
  rw [bitOf_eq_toNat]
  exact Bool.toNat_le b

/-- Bit `k` of a byte as a number. -/
theorem bitOf_getLsbD (a : Byte) (k : Nat) : bitOf (a.getLsbD k) = a.toNat / 2 ^ k % 2 :=
  (bitOf_eq_toNat _).trans (Nat.toNat_testBit a.toNat k)

theorem bitOf_lowBit (a : Byte) : bitOf (lowBit a) = a.toNat % 2 := (bitOf_getLsbD a 0).trans (by rw [pow_zero, Nat.div_one])

theorem bitOf_highBit (a : Byte) : bitOf (highBit a) = a.toNat / 128 :=
  (bitOf_getLsbD a 7).trans (Nat.mod_eq_of_lt (by omega))

/-! ### The loads, the bitwise operations and the two additions -/

/-- Settles O36: each of the five is a `writeV` of its result, then `advance`. -/
theorem loadsAndBitwiseWriteOnlyVx : Obligations.LoadsAndBitwiseWriteOnlyVx := fun x y kk _ =>
  ⟨decode_encode (i := .ldImm x kk) rfl, decode_encode (i := .ldReg x y) rfl, decode_encode (i := .orReg x y) rfl,
    decode_encode (i := .andReg x y) rfl, decode_encode (i := .xorReg x y) rfl, rfl, rfl, rfl, rfl, rfl⟩

/-- Settles O37: one `writeV` of the reduced sum, and no `writeFlag`. -/
theorem addImmediateWrapsWithoutFlag : Obligations.AddImmediateWrapsWithoutFlag := by
  intro x kk s
  refine ⟨decode_encode (i := .addImm x kk) rfl, _, rfl, rfl, ?_, fun q hq => ?_⟩
  · rw [advance_readV, readV_writeV_same, toNat_sumByte]
  · rw [advance_readV, readV_writeV_ne s _ hq]

/-- The flag register reads as the flag just written to it. -/
theorem readV_writeFlag_same (s : State) (f : Bool) : (s.writeFlag f).readV flagReg = flagByte f := readV_writeV_same s _ _

/-- Settles O38: the sum goes to `V[x]` before the flag is written, so that the carry is what the flag register ends holding. -/
theorem addRegisterSetsCarry : Obligations.AddRegisterSetsCarry := by
  intro x y s
  refine ⟨decode_encode (i := .addReg x y) rfl, _, rfl, rfl, fun hx => ?_, ?_, fun q hq hf => ?_⟩
  · rw [advance_readV, readV_writeFlag_ne _ _ hx, readV_writeV_same, toNat_sumByte]
  · rw [advance_readV, readV_writeFlag_same, toNat_flagByte]
    rfl
  · rw [advance_readV, readV_writeFlag_ne _ _ hf, readV_writeV_ne s _ hq]

/-! ### The instructions that write the flag first -/

/-- The meaning that `SUB`, `SUBN`, `SHR` and `SHL` share: the flag first, then to `V[x]` a result of the registers as they now stand (R121). -/
def execFlagFirst (x : Reg) (f : Bool) (result : State → Byte) (s : State) : Result :=
  .next ((s.writeFlag f).writeV x (result (s.writeFlag f))).advance

/-- What such an instruction leaves: the result in `V[x]`, the flag unless the result overwrote it, and all else but `pc`. -/
theorem execFlagFirst_spec (x : Reg) (f : Bool) (result : State → Byte) (s : State) :
    ∃ t, execFlagFirst x f result s = .next t ∧ t = { s with v := t.v, pc := s.pc + 2 } ∧
      t.readV x = result (s.writeFlag f) ∧ (x ≠ flagReg → (t.readV flagReg).toNat = bitOf f) ∧
      ∀ q, q ≠ x → q ≠ flagReg → t.readV q = s.readV q := by
  refine ⟨_, rfl, rfl, ?_, fun hx => ?_, fun q hq hf => ?_⟩
  · rw [advance_readV, readV_writeV_same]
  · rw [advance_readV, readV_writeV_ne _ _ hx.symm, readV_writeFlag_same, toNat_flagByte]
  · rw [advance_readV, readV_writeV_ne _ _ hq, readV_writeFlag_ne s _ hf]

/-- What an operand register holds once the flag `f` is written: the flag register holds `f` itself (R121). -/
def State.liveOperand (s : State) (f : Nat) (q : Reg) : Nat := if q = flagReg then f else (s.readV q).toNat

theorem toNat_readV_writeFlag (s : State) (f : Bool) (q : Reg) : ((s.writeFlag f).readV q).toNat = s.liveOperand (bitOf f) q := by
  rw [readV_writeFlag, State.liveOperand, apply_ite BitVec.toNat, toNat_flagByte]

theorem liveOperand_flag {q : Reg} (h : q = flagReg) (f : Nat) : s.liveOperand f q = f := if_pos h

theorem liveOperand_of_ne {q : Reg} (h : q ≠ flagReg) (f : Nat) : s.liveOperand f q = (s.readV q).toNat := if_neg h

/-! ### The subtractions (R137, R139) -/

/-- The meaning that `SUB` and `SUBN` share: `V[a] - V[b]` to `V[x]`, after its not-borrow flag. -/
def execDiff (x a b : Reg) (s : State) : Result :=
  execFlagFirst x (notBorrow (s.readV a) (s.readV b)) (fun t => diffByte (t.readV a) (t.readV b)) s

theorem exec_sub_eq (x y : Reg) (s : State) : exec (.sub x y) s = execDiff x x y s := rfl

theorem exec_subn_eq (x y : Reg) (s : State) : exec (.subn x y) s = execDiff x y x s := rfl

/-- A register less itself is 0. -/
theorem diffByte_self (a : Byte) : diffByte a a = 0 := by
  rw [diffByte, Nat.add_sub_cancel_left]
  rfl

/-- A subtraction's difference is that of its operands with the flag already written: in each case of `a` and `b` naming the flag register,
and whatever the destination. -/
theorem execDiff_spec (x a b : Reg) (s : State) {f : Nat} (hf : f = bitOf (decide ((s.readV b).toNat ≤ (s.readV a).toNat))) :
    ∃ t, execDiff x a b s = .next t ∧ t = { s with v := t.v, pc := s.pc + 2 } ∧ (x ≠ flagReg → (t.readV flagReg).toNat = f) ∧
      (a ≠ flagReg → b ≠ flagReg → (t.readV x).toNat = ((s.readV a).toNat + 256 - (s.readV b).toNat) % 256) ∧
      (a = flagReg → b ≠ flagReg → (t.readV x).toNat = (f + 256 - (s.readV b).toNat) % 256) ∧
      (a ≠ flagReg → b = flagReg → (t.readV x).toNat = ((s.readV a).toNat + 256 - f) % 256) ∧
      (a = flagReg → b = flagReg → t.readV x = 0) ∧
      ∀ q, q ≠ x → q ≠ flagReg → t.readV q = s.readV q := by
  subst hf
  obtain ⟨t, ht, hs, hx, hflag, hframe⟩ := execFlagFirst_spec x (notBorrow (s.readV a) (s.readV b))
    (fun t => diffByte (t.readV a) (t.readV b)) s
  have hdiff := congrArg BitVec.toNat hx
  rw [toNat_diffByte, toNat_readV_writeFlag, toNat_readV_writeFlag] at hdiff
  refine ⟨t, ht, hs, hflag, fun ha hb => ?_, fun ha hb => ?_, fun ha hb => ?_, fun ha hb => ?_, hframe⟩
  · rw [hdiff, liveOperand_of_ne ha, liveOperand_of_ne hb]
  · rw [hdiff, liveOperand_flag ha, liveOperand_of_ne hb]
    rfl
  · rw [hdiff, liveOperand_of_ne ha, liveOperand_flag hb]
    rfl
  · rw [hx, ha, hb, diffByte_self]

/-- Settles O39: `V[x] - V[y]`, each operand being the flag where it names the flag register. -/
theorem subSetsNotBorrowFirst : Obligations.SubSetsNotBorrowFirst := by
  intro x y s f hf
  obtain ⟨t, ht, hspec⟩ := execDiff_spec x x y s hf
  exact ⟨decode_encode (i := .sub x y) rfl, t, (exec_sub_eq x y s).trans ht, hspec⟩

/-- Settles O40: `V[y] - V[x]`, so that the cases where just one of the two names the flag register change places. -/
theorem subnSetsNotBorrowFirst : Obligations.SubnSetsNotBorrowFirst := by
  intro x y s f hf
  obtain ⟨t, ht, hs, hflag, hnone, hleft, hright, hboth, hframe⟩ := execDiff_spec x y x s hf
  exact ⟨decode_encode (i := .subn x y) rfl, t, (exec_subn_eq x y s).trans ht, hs, hflag, fun hx hy => hnone hy hx,
    fun hx hy => hright hy hx, fun hx hy => hleft hy hx, fun hx hy => hboth hy hx, hframe⟩

/-! ### The shifts (R138, R140) -/

/-- The shifts ignore `y`: any `y` decodes alike (R82). -/
theorem decode_shr_any_y (x y : Reg) : decode (wordXYN 0x8 x y 0x6) = .instr (.shr x) := by simp [decode_type8, decodeType8]

theorem decode_shl_any_y (x y : Reg) : decode (wordXYN 0x8 x y 0xE) = .instr (.shl x) := by simp [decode_type8, decodeType8]

theorem exec_shr_eq (x : Reg) (s : State) :
    exec (.shr x) s = execFlagFirst x (lowBit (s.readV x)) (fun t => halfByte (t.readV x)) s := rfl

theorem exec_shl_eq (x : Reg) (s : State) :
    exec (.shl x) s = execFlagFirst x (highBit (s.readV x)) (fun t => doubleByte (t.readV x)) s := rfl

theorem exec_shr_spec (x : Reg) (s : State) :
    ∃ t, exec (.shr x) s = .next t ∧ t = { s with v := t.v, pc := s.pc + 2 } ∧
      (x ≠ flagReg → (t.readV x).toNat = (s.readV x).toNat / 2 ∧ (t.readV flagReg).toNat = (s.readV x).toNat % 2) ∧
      (x = flagReg → t.readV x = 0) ∧ ∀ q, q ≠ x → q ≠ flagReg → t.readV q = s.readV q := by
  obtain ⟨t, ht, hs, hx, hflag, hframe⟩ := execFlagFirst_spec x (lowBit (s.readV x)) (fun t => halfByte (t.readV x)) s
  have hhalf : (t.readV x).toNat = s.liveOperand (bitOf (lowBit (s.readV x))) x / 2 := by
    rw [hx, toNat_halfByte, toNat_readV_writeFlag]
  refine ⟨t, (exec_shr_eq x s).trans ht, hs, fun hne => ⟨?_, ?_⟩, fun he => ?_, hframe⟩
  · rw [hhalf, liveOperand_of_ne hne]
  · rw [hflag hne, bitOf_lowBit]
  · rw [liveOperand_flag he, Nat.div_eq_of_lt (Nat.lt_succ_of_le (bitOf_le_one _))] at hhalf
    exact BitVec.eq_of_toNat_eq hhalf

theorem exec_shl_spec (x : Reg) (s : State) :
    ∃ t, exec (.shl x) s = .next t ∧ t = { s with v := t.v, pc := s.pc + 2 } ∧
      (x ≠ flagReg → (t.readV x).toNat = (s.readV x).toNat * 2 % 256 ∧ (t.readV flagReg).toNat = (s.readV x).toNat / 128) ∧
      (x = flagReg → (t.readV x).toNat = (s.readV x).toNat / 128 * 2) ∧
      ∀ q, q ≠ x → q ≠ flagReg → t.readV q = s.readV q := by
  obtain ⟨t, ht, hs, hx, hflag, hframe⟩ := execFlagFirst_spec x (highBit (s.readV x)) (fun t => doubleByte (t.readV x)) s
  have hdouble : (t.readV x).toNat = s.liveOperand ((s.readV x).toNat / 128) x * 2 % 256 := by
    rw [hx, toNat_doubleByte, toNat_readV_writeFlag, bitOf_highBit]
  refine ⟨t, (exec_shl_eq x s).trans ht, hs, fun hne => ⟨?_, ?_⟩, fun he => ?_, hframe⟩
  · rw [hdouble, liveOperand_of_ne hne]
  · rw [hflag hne, bitOf_highBit]
  · rw [hdouble, liveOperand_flag he]
    omega

/-- Settles O41: each shift writes its flag first, and with `x = 0xF` shifts that flag. -/
theorem shiftsSetShiftedOutBitFirst : Obligations.ShiftsSetShiftedOutBitFirst := fun x y s =>
  ⟨decode_shr_any_y x y, decode_shl_any_y x y, exec_shr_spec x s, exec_shl_spec x s⟩

/-! ### The random byte (R141) -/

theorem exec_rnd_eq (x : Reg) (kk : Byte) (s : State) :
    exec (.rnd x kk) s = .next (s.dropRandom.writeV x (s.nextRandom &&& kk)).advance := rfl

theorem exec_rnd_listed {x : Reg} {kk r : Byte} {rs : List Byte} (h : s.randoms = r :: rs) :
    exec (.rnd x kk) s = .next { s with v := s.v.set x (r &&& kk), randoms := rs, pc := s.pc + 2 } := by
  have hn : s.nextRandom = r := by simp only [State.nextRandom, h]
  have hd : s.dropRandom = { s with randoms := rs } := by simp only [State.dropRandom, h]
  rw [exec_rnd_eq, hn, hd]
  rfl

theorem exec_rnd_free {x : Reg} {kk : Byte} (h : s.randoms = []) :
    exec (.rnd x kk) s =
      .next { s with v := s.v.set x (Config.freeRandomByte s.draws &&& kk), draws := s.draws + 1, pc := s.pc + 2 } := by
  have hn : s.nextRandom = Config.freeRandomByte s.draws := by simp only [State.nextRandom, h]
  have hd : s.dropRandom = { s with draws := s.draws + 1 } := by simp only [State.dropRandom, h]
  rw [exec_rnd_eq, hn, hd]
  rfl

/-- Settles O42: the next answer is the head of the list, or the free byte of this draw. -/
theorem rndMasksTheRandomByte : Obligations.RndMasksTheRandomByte := fun x kk _ =>
  ⟨decode_encode (i := .rnd x kk) rfl, fun _ _ h => exec_rnd_listed h, fun h => ⟨_, exec_rnd_free h⟩⟩

end Sys2Proof.Machine
end

section
/-! Obligations about the index register and the memory transfers (`42_index_memory.md`). -/

namespace Sys2Proof.Machine

variable {s t : State}

/-! ### The addresses at `I` (R52) -/

/-- The statements write the physical address of `I + k` out; a read at it is one at `I + k`, also once `s` became `t`. -/
theorem memRead_mod_eq_indexAddr (s t : State) (k : Nat) : t.memRead ((s.i.toNat + k) % 4096) = t.memRead (s.indexAddr k) :=
  memRead_eq_of_physAddr_eq t (Nat.mod_mod _ _)

theorem physAddr_ne_of_ne_mod {a b : Nat} (ha : a < 4096) (h : a ≠ b % 4096) : physAddr a ≠ physAddr b := by
  rwa [physAddr, Nat.mod_eq_of_lt ha]

/-- A window of at most 4096 bytes does not meet itself. -/
theorem physAddr_indexAddr_ne (s : State) {j k : Nat} (hjk : j < k) (hk : k < 4096) :
    physAddr (s.indexAddr j) ≠ physAddr (s.indexAddr k) := by
  simp only [physAddr, State.indexAddr, memSize]
  omega

/-! ### `LD I`, `ADD I` and `LD F` (R160–R162) -/

theorem toNat_word_add_byte (a : Word) (b : Byte) : (a + b.setWidth 16).toNat = (a.toNat + b.toNat) % 65536 := by
  rw [BitVec.toNat_add, BitVec.toNat_setWidth_of_le (by decide)]

/-- Settles O43: each of the two is a `writeI`, then `advance`. -/
theorem indexLoadsAndAdds : Obligations.IndexLoadsAndAdds := by
  intro nnn x s
  refine ⟨decode_encode (i := .ldI nnn) rfl, decode_encode (i := .addI x) rfl, ⟨_, rfl, rfl, ?_⟩, ⟨_, rfl, rfl, ?_⟩⟩
  · exact toNat_zext16 nnn
  · exact toNat_word_add_byte s.i (s.readV x)

theorem exec_ldF_glyph {x : Reg} (h : (s.readV x).toNat ≤ 15) :
    exec (.ldF x) s = .next (s.writeI (BitVec.ofNat 16 ((s.readV x).toNat * 5))).advance := if_neg (Nat.not_lt.2 h)

theorem exec_ldF_outOfRange {x : Reg} (h : 15 < (s.readV x).toNat) :
    exec (.ldF x) s = .next (s.raise (.glyphOutOfRange (encode (.ldF x)) s.pc (s.readV x))) := if_pos h

/-- Settles O44: the glyph address of a digit is at most 75, so it is not reduced. -/
theorem glyphAddressIsFiveTimesDigit : Obligations.GlyphAddressIsFiveTimesDigit := by
  intro x s
  refine ⟨decode_encode (i := .ldF x) rfl, fun h => ⟨_, exec_ldF_glyph h, rfl, ?_⟩, exec_ldF_outOfRange⟩
  exact (BitVec.toNat_ofNat _ _).trans (Nat.mod_eq_of_lt (by omega))

/-! ### `LD B` (R163) -/

theorem toNat_hundredsDigit (v : Byte) : (hundredsDigit v).toNat = v.toNat / 100 :=
  (BitVec.toNat_ofNat _ _).trans (Nat.mod_eq_of_lt (by omega))

theorem toNat_tensDigit (v : Byte) : (tensDigit v).toNat = v.toNat / 10 % 10 :=
  (BitVec.toNat_ofNat _ _).trans (Nat.mod_eq_of_lt (by omega))

theorem toNat_onesDigit (v : Byte) : (onesDigit v).toNat = v.toNat % 10 :=
  (BitVec.toNat_ofNat _ _).trans (Nat.mod_eq_of_lt (by omega))

/-- The three bytes that `LD B` stores: no later write of the three meets an earlier one. -/
theorem memRead_ldB {x : Reg} (hm : s.memOk) (h : exec (.ldB x) s = .next t) :
    t.memRead (s.indexAddr 0) = hundredsDigit (s.readV x) ∧ t.memRead (s.indexAddr 1) = tensDigit (s.readV x) ∧
      t.memRead (s.indexAddr 2) = onesDigit (s.readV x) := by
  cases h
  have hm₁ := memOk_memWrite hm (s.indexAddr 0) (hundredsDigit (s.readV x))
  have hm₂ := memOk_memWrite hm₁ (s.indexAddr 1) (tensDigit (s.readV x))
  have h01 := physAddr_indexAddr_ne s (j := 0) (k := 1) (by decide) (by decide)
  have h02 := physAddr_indexAddr_ne s (j := 0) (k := 2) (by decide) (by decide)
  have h12 := physAddr_indexAddr_ne s (j := 1) (k := 2) (by decide) (by decide)
  refine ⟨?_, ?_, ?_⟩
  · rw [advance_memRead, memRead_memWrite_ne hm₂ h02, memRead_memWrite_ne hm₁ h01, memRead_memWrite_same hm rfl]
  · rw [advance_memRead, memRead_memWrite_ne hm₂ h12, memRead_memWrite_same hm₁ rfl]
  · rw [advance_memRead, memRead_memWrite_same hm₂ rfl]

/-- Settles O45: the three stored bytes by `memRead_ldB`, the others by `memRead_ldB_outside`. -/
theorem decimalDigitsAreStored : Obligations.DecimalDigitsAreStored := by
  intro x s hm
  refine ⟨decode_encode (i := .ldB x) rfl, _, rfl, rfl, ?_⟩
  obtain ⟨hhundreds, htens, hones⟩ := memRead_ldB (x := x) hm rfl
  refine ⟨?_, ?_, ?_, fun a ha hne => memRead_ldB_outside (x := x) hm rfl fun k hk => physAddr_ne_of_ne_mod ha (hne k hk)⟩
  · rw [memRead_mod_eq_indexAddr, hhundreds, toNat_hundredsDigit]
  · rw [memRead_mod_eq_indexAddr, htens, toNat_tensDigit]
  · rw [memRead_mod_eq_indexAddr, hones, toNat_onesDigit]

/-! ### The register dump and the register load (R164, R165) -/

/-- Settles O46: byte `q` of the dump by `memRead_storeRegs`; outside the window the dump keeps every byte. -/
theorem registerDumpStoresUpToVx : Obligations.RegisterDumpStoresUpToVx := by
  intro x s hm
  refine ⟨decode_encode (i := .storeRegs x) rfl, _, rfl, congrArg State.advance (storeRegsUpTo_eq s _), fun q hq => ?_, fun a ha hne => ?_⟩
  · rw [memRead_mod_eq_indexAddr]
    exact memRead_storeRegs hm hq rfl
  · rw [advance_memRead]
    exact memRead_storeRegsUpTo_outside hm _ a fun k hk => physAddr_ne_of_ne_mod ha (hne k (Nat.le_of_lt_succ hk))

theorem readV_loadRegs_of_le {x q : Reg} (hq : q ≤ x) (h : exec (.loadRegs x) s = .next t) : t.readV q = s.memRead (s.indexAddr q.val) := by
  cases h
  rw [advance_readV, readV_loadRegsUpTo s _ x.isLt, if_pos (Nat.lt_succ_of_le hq)]

theorem readV_loadRegs_of_gt {x q : Reg} (hq : x < q) (h : exec (.loadRegs x) s = .next t) : t.readV q = s.readV q :=
  onlyDestinationsAndFlagChange _ _ _ q h (by simpa [writesReg] using hq)

/-- Settles O47: `V[0]` to `V[x]` by `readV_loadRegs_of_le`, the registers above `x` by `readV_loadRegs_of_gt`. -/
theorem registerLoadReadsUpToVx : Obligations.RegisterLoadReadsUpToVx := by
  intro x s
  refine ⟨decode_encode (i := .loadRegs x) rfl, _, rfl, congrArg State.advance (loadRegsUpTo_eq s _), fun q hq => ?_, fun q hq => ?_⟩
  · rw [memRead_mod_eq_indexAddr]
    exact readV_loadRegs_of_le hq rfl
  · exact readV_loadRegs_of_gt hq rfl

/-- Settles O48: the dump leaves `I` as it was, so that the load reads the bytes dumped. -/
theorem dumpThenLoadRestoresRegisters : Obligations.DumpThenLoadRestoresRegisters := by
  intro x s t v' hm h
  refine ⟨_, rfl, fun q hq => ?_, fun q hq => readV_loadRegs_of_gt hq rfl⟩
  have hi : t.indexAddr q.val = s.indexAddr q.val := congrArg (·.toNat + q.val) (exec_i h nofun nofun nofun)
  calc
    _ = t.memRead (t.indexAddr q.val) := readV_loadRegs_of_le (s := { t with v := v' }) hq rfl
    _ = t.memRead (s.indexAddr q.val) := congrArg t.memRead hi
    _ = s.readV q := memRead_storeRegs hm hq h

end Sys2Proof.Machine
end

section
/-! Obligations about the display: the redraw, `CLS` and the drawing of sprites (`43_display.md`). -/

namespace Sys2Proof.Machine

variable {s t : State} {x y : Reg} {n : Nibble}

/-! ### `Redraw()` and `CLS` (R186, R180) -/

theorem redraw_of_dirty (h : s.dirty = true) : s.redraw = { s with prev := s.disp, dirty := false } := if_pos h

theorem redraw_of_not_dirty (h : s.dirty = false) : s.redraw = s := if_neg (by simp [h])

/-- Settles O28: the step is the listed action, and the redraw goes by `DIRTY`. -/
theorem redrawCopiesAndClearsDirty : Obligations.RedrawCopiesAndClearsDirty := by
  intro s rest h
  have hstep : step s = .next { s with actions := rest }.redraw := step_action h
  exact ⟨fun hd => hstep.trans (congrArg _ (redraw_of_dirty hd)), fun hd => hstep.trans (congrArg _ (redraw_of_not_dirty hd))⟩

/-- Settles O50: `CLS` puts the blank grid in place of `DISP`. -/
theorem clsClearsEveryCell : Obligations.ClsClearsEveryCell := fun _ =>
  ⟨decode_encode (i := .cls) rfl, _, rfl, rfl, cell_blank⟩

/-! ### One `DRW` (R181–R185) -/

theorem flagByte_eq_zero_or_one (b : Bool) : flagByte b = 0 ∨ flagByte b = 1 := by cases b <;> decide

theorem flagByte_eq_one_iff (b : Bool) : flagByte b = 1 ↔ b = true := by cases b <;> decide

theorem spriteBytes_length_le (s : State) (n : Nibble) : (s.spriteBytes n.toNat).length ≤ 32 := by
  rw [spriteBytes_length]
  omega

open Classical in
theorem cell_drawnCanvas (s : State) (x y : Reg) (n : Nibble) (r : Fin 32) (c : Fin 64) :
    (s.drawnCanvas x y n).grid.cell r c = (s.disp.cell r c ^^ decide (spriteCovers s x y n r c)) := by
  rw [State.drawnCanvas, compositeSprite, (drawRows_spec _ _ _ _ 0 (spriteBytes_length_le s n)).1]
  simp only [rowsCover_iff_spriteCovers]

theorem erased_drawnCanvas_iff_covers (s : State) (x y : Reg) (n : Nibble) :
    (s.drawnCanvas x y n).erased = true ↔ ∃ r c, s.disp.cell r c = true ∧ spriteCovers s x y n r c := by
  rw [State.drawnCanvas, compositeSprite, (drawRows_spec _ _ _ _ 0 (spriteBytes_length_le s n)).2]
  simp only [rowsCover_iff_spriteCovers, Bool.false_or, decide_eq_true_eq]

/-- A cell that was 1 ends 0 exactly if the sprite covers it: the erasure is a change from 1 to 0 (R184). -/
theorem erased_drawnCanvas_iff (s : State) (x y : Reg) (n : Nibble) :
    (s.drawnCanvas x y n).erased = true ↔ ∃ r c, s.disp.cell r c = true ∧ (s.drawnCanvas x y n).grid.cell r c = false := by
  rw [erased_drawnCanvas_iff_covers]
  refine exists₂_congr fun r c => and_congr_right fun hc => ?_
  simp [cell_drawnCanvas, hc]

theorem exec_drw_disp (h : exec (.drw x y n) s = .next t) : t.disp = (s.drawnCanvas x y n).grid := by cases h; rfl

theorem readV_flagReg_drw (h : exec (.drw x y n) s = .next t) : t.readV flagReg = flagByte (s.drawnCanvas x y n).erased := by
  cases h
  rw [advance_readV, readV_writeFlag_same]

theorem readV_drw_of_ne {q : Reg} (h : exec (.drw x y n) s = .next t) (hq : q ≠ flagReg) : t.readV q = s.readV q :=
  onlyDestinationsAndFlagChange _ _ _ q h (by simpa [writesReg] using hq)

/-- The flag register after `DRW` reports the cells that went from 1 to 0 (R184). -/
theorem readV_flagReg_drw_eq_one_iff (h : exec (.drw x y n) s = .next t) :
    t.readV flagReg = 1 ↔ ∃ r c, s.disp.cell r c = true ∧ t.disp.cell r c = false := by
  rw [readV_flagReg_drw h, flagByte_eq_one_iff, erased_drawnCanvas_iff, exec_drw_disp h]

/-- Settles O51: the cells by `cell_drawnCanvas`, the collision by `readV_flagReg_drw_eq_one_iff`. -/
theorem drawInvertsCoveredCells : Obligations.DrawInvertsCoveredCells := by
  intro x y n s
  obtain ⟨t, h⟩ := exec_next (.drw x y n) s
  refine ⟨decode_encode (i := .drw x y n) rfl, t, h, by cases h; rfl, fun r c => ?_, ?_, readV_flagReg_drw_eq_one_iff h,
    fun q hq => readV_drw_of_ne h hq⟩
  · rw [exec_drw_disp h, cell_drawnCanvas]
    exact ⟨fun hc => by simp [hc], fun hc => by simp [hc]⟩
  · rw [readV_flagReg_drw h]
    exact flagByte_eq_zero_or_one _

/-! ### Two equal `DRW` in a row (R187) -/

/-- With its origin outside the flag register, a second equal `DRW` covers the cells that the first did: registers, `I` and memory are as they were. -/
theorem spriteCovers_after_drw (hx : x ≠ flagReg) (hy : y ≠ flagReg) (h : exec (.drw x y n) s = .next t) (r : Fin 32) (c : Fin 64) :
    spriteCovers t x y n r c ↔ spriteCovers s x y n r c := by
  have hi : t.i = s.i := exec_i h nofun nofun nofun
  have hm : ∀ a, t.memRead a = s.memRead a := memRead_congr (exec_mem h nofun nofun) (exec_cfg h)
  simp only [spriteCovers, readV_drw_of_ne h hx, readV_drw_of_ne h hy, hi, hm]

/-- Settles O52: the second draw inverts the covered cells back, so that it erases the cells that the first turned on. -/
theorem drawingTwiceRestoresGrid : Obligations.DrawingTwiceRestoresGrid := by
  intro x y n s t u hx hy ht hu
  have hdisp : u.disp = s.disp := grid_ext fun r c => by
    rw [exec_drw_disp hu, cell_drawnCanvas, exec_drw_disp ht, cell_drawnCanvas,
      decide_eq_decide.2 (spriteCovers_after_drw hx hy ht r c), Bool.xor_assoc, Bool.xor_self, Bool.xor_false]
  refine ⟨hdisp, ?_⟩
  rw [readV_flagReg_drw_eq_one_iff hu, hdisp]
  exact exists₂_congr fun r c => and_comm

end Sys2Proof.Machine
end

section
/-! Obligations about the timers and key input: the timer transfers, the key skips and the blocking key wait (`44_timers_input.md`). -/

namespace Sys2Proof.Machine

variable {s u : State} {i : Instr} {x : Reg}

/-! ### The timer transfers (R202, R204, R205) -/

/-- Settles O54: each of the three is one write of the byte it reads, then `advance`. -/
theorem timerTransfersCopy : Obligations.TimerTransfersCopy := fun x _ =>
  ⟨decode_encode (i := .ldVxDt x) rfl, decode_encode (i := .ldDtVx x) rfl, decode_encode (i := .ldStVx x) rfl, rfl, rfl, rfl⟩

/-! ### The next key snapshot (R252) -/

theorem nextSample_listed {a : KeySample} {ks : List KeySample} (h : s.samples = a :: ks) : s.nextSample = a := by
  simp only [State.nextSample, h]

theorem dropSample_listed {a : KeySample} {ks : List KeySample} (h : s.samples = a :: ks) :
    s.dropSample = { s with samples := ks } := by
  simp only [State.dropSample, h]

theorem dropSample_free (h : s.samples = []) : s.dropSample = { s with draws := s.draws + 1 } := by
  simp only [State.dropSample, h]

/-! ### The key skips (R200, R201) -/

/-- An id above 15 is fatal before any key is sampled (R225, R229). -/
theorem execKeySkip_outOfRange {w : Word} {want : Bool} (h : 15 < (s.readV x).toNat) :
    execKeySkip w x want s = .next (s.raise (.keyOutOfRange w s.pc (s.readV x))) := if_pos h

theorem execKeySkip_inRange {w : Word} {want : Bool} {k : Key} (hk : (s.readV x).toNat = k.val) :
    execKeySkip w x want s = .next (s.skipOnKey w k want) := by
  rw [execKeySkip, if_neg (by omega), hk, Fin.ofNat_val_eq_self]

theorem skipOnKey_held {w : Word} {want : Bool} {k : Key} {keys : List Key} (h : s.nextSample = .held keys) :
    s.skipOnKey w k want = s.dropSample.skipIf (keys.contains k == want) := by
  simp only [State.skipOnKey, h]

theorem skipOnKey_failure {w : Word} {want : Bool} {k : Key} (h : s.nextSample = .failure) :
    s.skipOnKey w k want = s.dropSample.signalInputFailure w := by
  simp only [State.skipOnKey, h]

/-- With a snapshot of the held keys, `SKP` skips exactly where `SKNP` does not. -/
theorem exec_keySkips_held {k : Key} {keys : List Key} (hk : (s.readV x).toNat = k.val) (h : s.nextSample = .held keys) :
    exec (.skp x) s = .next { s.dropSample with pc := if k ∈ keys then s.pc + 4 else s.pc + 2 } ∧
    exec (.sknp x) s = .next { s.dropSample with pc := if k ∈ keys then s.pc + 2 else s.pc + 4 } := by
  rw [exec_skp_eq, exec_sknp_eq, execKeySkip_inRange hk, execKeySkip_inRange hk, skipOnKey_held h, skipOnKey_held h,
    skipIf_of_iff (p := k ∈ keys) (by simp), skipIf_of_iff (p := k ∉ keys) (by simp), dropSample_pc, ite_not]
  exact ⟨rfl, rfl⟩

theorem exec_keySkips_failure {k : Key} (hk : (s.readV x).toNat = k.val) (h : s.nextSample = .failure) :
    exec (.skp x) s = .next (s.dropSample.signalInputFailure (encode (.skp x))) ∧
    exec (.sknp x) s = .next (s.dropSample.signalInputFailure (encode (.sknp x))) := by
  rw [exec_skp_eq, exec_sknp_eq, execKeySkip_inRange hk, execKeySkip_inRange hk, skipOnKey_failure h, skipOnKey_failure h]
  exact ⟨rfl, rfl⟩

/-- A byte of at most 15 is a key's id. -/
theorem exists_key_of_le {b : Byte} (h : b.toNat ≤ 15) : ∃ k : Key, b.toNat = k.val := ⟨⟨b.toNat, by omega⟩, rfl⟩

/-- Settles O53: the range check comes first; then what the one snapshot holds, listed or free, decides. -/
theorem keySkipsFollowTheSnapshot : Obligations.KeySkipsFollowTheSnapshot := by
  intro x s
  refine ⟨decode_encode (i := .skp x) rfl, decode_encode (i := .sknp x) rfl,
    fun h => ⟨execKeySkip_outOfRange h, execKeySkip_outOfRange h⟩, fun k keys ks hk hs => ?held, fun ks hr hs => ?failure,
    fun k hk hs => ?free⟩
  case held =>
    have h := exec_keySkips_held hk (nextSample_listed hs)
    rwa [dropSample_listed hs] at h
  case failure =>
    obtain ⟨k, hk⟩ := exists_key_of_le hr
    have h := exec_keySkips_failure hk (nextSample_listed hs)
    rwa [dropSample_listed hs] at h
  case free =>
    cases hn : s.nextSample with
    | held keys =>
      have h := exec_keySkips_held hk hn
      rw [dropSample_free hs] at h
      exact .inl ⟨keys, h⟩
    | failure =>
      have h := exec_keySkips_failure hk hn
      rw [dropSample_free hs] at h
      exact .inr h

/-! ### How a step with such an instruction ends (R226, R246) -/

/-- A step that is due performs the decoded instruction and goes on as its outcome says (R85, R241). -/
theorem step_of_exec (ha : s.actions = []) (hr : s.status = .running) (hz : s.accI = 0) (hd : decode s.fetch = .instr i)
    (hu : exec i s.beginStep = .next u) : step s = .next u.afterInstruction := by
  rw [step_running ha hr]
  exact schedStep_event hz ((executeOne_of_decode (s := s.beginStep) hd).trans hu)

theorem afterInstruction_inputFailure {w p : Word} (hs : u.status = .running) (hr : u.report = .inputFailure w p) :
    u.afterInstruction = u := by
  simp only [State.afterInstruction, hs, hr]

theorem afterInstruction_waiting (hs : u.status = .waiting x) : u.afterInstruction = { u with report := .suspended } := by
  simp only [State.afterInstruction, hs]

/-- A word that decodes to an instruction with no ignored bits is the instruction's encoding (log 20). -/
theorem encode_of_decode {w : Word} (h : decode w = .instr i) (hi : significantBits i = 0xFFFF) : encode i = w := by
  obtain ⟨-, he⟩ := standsFor_of_decode h
  rw [he, hi, and_all]

/-- A step whose key sample fails ends with the failure signalled (R226). -/
theorem step_of_failedSample (ha : s.actions = []) (hr : s.status = .running) (hz : s.accI = 0) (hd : decode s.fetch = .instr i)
    (hi : significantBits i = 0xFFFF) (hu : exec i s.beginStep = .next (s.beginStep.dropSample.signalInputFailure (encode i))) :
    step s = .next (s.beginStep.dropSample.signalInputFailure s.fetch) := by
  rw [step_of_exec ha hr hz hd hu, afterInstruction_inputFailure (by simpa using hr) (signalInputFailure_report _ _),
    encode_of_decode hd hi]

/-- Settles O16: either key skip, on a failed sample, signals the failure, and the signalled failure abandons the step. -/
theorem failedSampleAbandonsStep : Obligations.FailedSampleAbandonsStep := by
  intro s x ks ha hr hz hd hv hs
  obtain ⟨k, hk⟩ := exists_key_of_le hv
  have hb : s.beginStep.samples = .failure :: ks := hs
  obtain ⟨hskp, hsknp⟩ := exec_keySkips_failure (s := s.beginStep) hk (nextSample_listed hb)
  have hstep : step s = .next (s.beginStep.dropSample.signalInputFailure s.fetch) := by
    obtain hd | hd := hd
    · exact step_of_failedSample ha hr hz hd rfl hskp
    · exact step_of_failedSample ha hr hz hd rfl hsknp
  rw [hstep, dropSample_listed hb]
  rfl

/-! ### The blocking key wait (R203) -/

/-- Settles O55: phase 1 sets `STATUS` only, and a step that finds the machine waiting is suspended. -/
theorem keyWaitSuspendsStep : Obligations.KeyWaitSuspendsStep := by
  refine fun x s => ⟨decode_encode (i := .ldVxK x) rfl, rfl, fun ha hr hz hd => ?_⟩
  have hu : exec (.ldVxK x) s.beginStep = .next (s.beginStep.beginWait x) := rfl
  rw [step_of_exec ha hr hz hd hu, afterInstruction_waiting (beginWait_status _ x)]
  rfl

theorem keyEvent_press (h : s.status = .waiting x) (k : Key) : s.keyEvent (.press k) = s.deliverKey x k := by
  simp only [State.keyEvent, h]

theorem keyEvent_failure (h : s.status = .waiting x) : s.keyEvent .failure = s.abandonWait x := by
  simp only [State.keyEvent, h]

/-- A listed press during a wait is delivered (R253). -/
theorem step_keyPress {k : Key} {rest : List HostAction} (hw : s.status = .waiting x) (ha : s.actions = .keyPress k :: rest) :
    step s = .next (State.deliverKey { s with actions := rest } x k) :=
  (step_action ha).trans (congrArg _ (keyEvent_press (s := { s with actions := rest }) hw k))

/-- A listed failure during a wait gives the wait up (R226, R253). -/
theorem step_keyFailure {rest : List HostAction} (hw : s.status = .waiting x) (ha : s.actions = .keyFailure :: rest) :
    step s = .next (State.abandonWait { s with actions := rest } x) :=
  (step_action ha).trans (congrArg _ (keyEvent_failure (s := { s with actions := rest }) hw))

/-- A completed step in full: the timers decay if their event is due, and the smaller accumulator is slept (R241). -/
theorem completeStep_eq_sleep (u : State) {T d : Nat} (hT : T = if u.accT = 0 then periodT u.cfg else u.accT)
    (hd : d = min (periodI u.cfg) T) : u.completeStep = { u with
      dt := if u.accT = 0 then decayByte u.dt else u.dt, st := if u.accT = 0 then decayByte u.st else u.st,
      accI := periodI u.cfg - d, accT := T - d, report := .sleep d } := by
  subst hd hT
  rw [completeStep_eq, completeStep_dt, completeStep_st, completeStep_accI, completeStep_accT, completeStep_report]

/-- Settles O18: a press is phase 2 and the rest of the suspended step; a failure gives the wait up. -/
theorem keyEventsEndWait : Obligations.KeyEventsEndWait := by
  intro s x rest hw
  refine ⟨fun k T d ha hT hd => ?_, step_keyFailure hw⟩
  have hstep := completeStep_eq_sleep (State.endWait { s with actions := rest } x k) hT hd
  exact (step_keyPress hw ha).trans (congrArg _ hstep)

end Sys2Proof.Machine
end

section
/-! Obligations about one step of the scheduler: the periods, the timers, how a step completes, and how a fatal error ends it
(`60_exceptions.md` sections 1 and 3). -/

namespace Sys2Proof.Machine

variable {s t u : State} {i : Instr} {e : FatalError}

/-! ### The periods and the timers (R240, R242) -/

/-- Settles O11: the bounds are those of `periods_of_valid`. -/
theorem periodsRoundDown : Obligations.PeriodsRoundDown := by
  refine ⟨fun _ => ⟨rfl, rfl⟩, fun _ => periods_of_valid, fun c hi ht => ?_⟩
  rw [periodI, periodT, hi, ht]
  exact ⟨rfl, rfl⟩

theorem toNat_decayByte (b : Byte) : (decayByte b).toNat = b.toNat - 1 := by
  unfold decayByte
  split
  · subst b; rfl
  · bv_omega

/-- Settles O10: each timer is one `decayByte`. -/
theorem timerDecaySaturatesAtZero : Obligations.TimerDecaySaturatesAtZero := fun s =>
  ⟨rfl, toNat_decayByte s.dt, toNat_decayByte s.st⟩

/-! ### Steps that complete (R241) -/

/-- The second and third parts of a step in full: the timers decay if their event is due, and the smaller accumulator is slept. -/
theorem timerEvent_sleepUntilNext_eq (u : State) {T d : Nat} (hT : T = if u.accT = 0 then periodT u.cfg else u.accT)
    (hd : d = min u.accI T) : u.timerEvent.sleepUntilNext = { u with
      dt := if u.accT = 0 then decayByte u.dt else u.dt, st := if u.accT = 0 then decayByte u.st else u.st,
      accI := u.accI - d, accT := T - d, report := .sleep d } := by
  subst hd hT
  by_cases h : u.accT = 0 <;> simp [State.timerEvent, State.sleepUntilNext, State.timerDecay, h]

/-- Settles O9: a step that is not due is the timer event and the sleep. -/
theorem stepWithoutInstructionEvent : Obligations.StepWithoutInstructionEvent := by
  intro s ha hr hz T d hT hd
  rw [step_running ha hr, schedStep_idle hz]
  exact congrArg _ (timerEvent_sleepUntilNext_eq s.beginStep hT hd)

theorem afterInstruction_completed (hs : u.status = .running) (hr : ∀ w p, u.report ≠ .inputFailure w p) :
    u.afterInstruction = u.completeStep := by
  obtain ⟨_, he, -⟩ | ⟨_, hx, -⟩ | ⟨-, ⟨w, p, hw⟩, -⟩ | ⟨-, -, hc⟩ := afterInstruction_cases u
  · rw [hs] at he; cases he
  · rw [hs] at hx; cases hx
  · exact absurd hw (hr w p)
  · exact hc

/-- Settles O8: the instruction leaves `ACC_T` and the parameters as they were, so the step completes with the timer event that was due before it. -/
theorem completedInstructionStep : Obligations.CompletedInstructionStep := by
  intro s u i ha hr hz hd hu hs hf T d hT hmin
  have haccT : u.accT = s.accT := exec_accT (s := s.beginStep) hu
  have hcfg : u.cfg = s.cfg := exec_cfg (s := s.beginStep) hu
  rw [← haccT, ← hcfg] at hT
  rw [← hcfg] at hmin
  rw [step_of_exec ha hr hz hd hu, afterInstruction_completed hs hf, completeStep_eq_sleep u hT hmin, haccT, hcfg]

/-! ### Fatal errors (R220–R227) -/

/-- An instruction with no guard on the stack or on `V[x]` raises no error (R222–R225). -/
theorem exec_status_ne_halted (h : exec i s = .next t) (hs : s.status = .running) (hret : i ≠ .ret) (hcall : ∀ nnn, i ≠ .call nnn)
    (hldF : ∀ x, i ≠ .ldF x) (hskp : ∀ x, i ≠ .skp x) (hsknp : ∀ x, i ≠ .sknp x) : t.status ≠ .halted e := by
  cases i
  case ret => exact absurd rfl hret
  case call nnn => exact absurd rfl (hcall nnn)
  case ldF x => exact absurd rfl (hldF x)
  case skp x => exact absurd rfl (hskp x)
  case sknp x => exact absurd rfl (hsknp x)
  case ldVxK x => cases h; exact nofun
  all_goals
    have ht : t.status = s.status := (congrArg State.status (exec_frame h)).trans rfl
    rw [ht, hs]
    exact nofun

/-- A guard that raises is the only way such a meaning halts a running machine, and raising is all it does then (R227). -/
theorem guarded_raise {c : Prop} {_ : Decidable c} {e' : FatalError}
    (h : (if c then .next (s.raise e') else .next u : Result) = .next t) (hu : u.status = .running) (ht : t.status = .halted e) :
    c ∧ e = e' ∧ t = s.raise e := by
  obtain ⟨hc, rfl⟩ | ⟨-, rfl⟩ := guarded_cases h
  · cases ht
    exact ⟨hc, rfl, rfl⟩
  · rw [hu] at ht
    cases ht

/-- Settles O13: of the instructions only the five guarded ones raise, each when its guard holds. -/
theorem instructionErrorsArePrecise : Obligations.InstructionErrorsArePrecise := by
  intro i s t e h hs ht
  cases i
  case ret =>
    obtain ⟨hsp, rfl, rfl⟩ := guarded_raise h hs ht
    exact ⟨rfl, .inl ⟨rfl, hsp, by rw [hsp]; rfl⟩⟩
  case call nnn =>
    obtain ⟨hsp, rfl, rfl⟩ := guarded_raise h hs ht
    exact ⟨rfl, .inr (.inl ⟨nnn, rfl, hsp, rfl⟩)⟩
  case ldF x =>
    obtain ⟨hx, rfl, rfl⟩ := guarded_raise h hs ht
    exact ⟨rfl, .inr (.inr (.inl ⟨x, rfl, hx, rfl⟩))⟩
  case skp x | sknp x =>
    obtain ⟨hx, rfl, rfl⟩ := guarded_raise h (by simpa using hs) ht
    exact ⟨rfl, .inr (.inr (.inr ⟨x, by simp, hx, rfl⟩))⟩
  all_goals exact absurd ht (exec_status_ne_halted h hs nofun nofun nofun nofun nofun)

theorem afterInstruction_halted (hs : u.status = .halted e) : u.afterInstruction = { u with report := .error e } := by
  simp only [State.afterInstruction, hs]

/-- Settles O12: an error changes `STATUS` only, and the halted machine ends the step with no accumulator updated. -/
theorem fatalErrorEndsStep : Obligations.FatalErrorEndsStep := by
  intro s ha hr hz
  refine ⟨fun i u e hd hu hs => ?_, fun hill => ?_⟩
  · obtain ⟨rfl, -⟩ := instructionErrorsArePrecise i _ u e hu hr hs
    rw [step_of_exec ha hr hz hd hu, afterInstruction_halted hs]
  · have hx := executeOne_illegal (s := s.beginStep) hill
    rw [step_running ha hr, schedStep_event hz hx, afterInstruction_halted (raise_status _ _)]
    rfl

end Sys2Proof.Machine
end

section
/-! Obligations about the accumulators and simulated time: what a completed step leaves, and when the events fall (`60_exceptions.md` R243–R246). -/

namespace Sys2Proof.Machine

variable {s t u : State} {c : Clock} {d : Nat} {x : Reg}

/-! ### The steps that sleep and the steps that do not -/

theorem executeOne_accs (h : s.executeOne = .next u) : u.accI = s.accI ∧ u.accT = s.accT ∧ u.cfg = s.cfg := by
  obtain ⟨i, -, hx⟩ | ⟨_, -, rfl⟩ := executeOne_cases h
  · exact ⟨exec_accI hx, exec_accT hx, exec_cfg hx⟩
  · exact ⟨rfl, rfl, rfl⟩

/-- A machine that has done the instruction due in `s`, if one was due, and has the timer event and the sleep still to come (R241). -/
structure State.InstrDone (s u : State) : Prop where
  accI   : u.accI = if s.accI = 0 then periodI s.cfg else s.accI
  accT   : u.accT = s.accT
  cfg    : u.cfg = s.cfg
  status : u.status = .running

/-- A step from `s` either comes to its timer event and its sleep, or it is due and touches no accumulator (R226, R227, R241, R246). -/
theorem schedStep_sleep_cases (hr : s.status = .running) (h : s.schedStep = .next t) :
    (∃ u, s.InstrDone u ∧ t = u.timerEvent.sleepUntilNext) ∨
    ((∀ d, t.report ≠ .sleep d) ∧ s.accI = 0 ∧ t.accI = s.accI ∧ t.accT = s.accT ∧ t.cfg = s.cfg) := by
  obtain ⟨hz, u, hu, rfl⟩ | ⟨hz, rfl⟩ := schedStep_cases h
  · obtain ⟨hi, ht, hc⟩ := executeOne_accs hu
    obtain ⟨e, -, he⟩ | ⟨x, -, he⟩ | ⟨-, ⟨w, p, hw⟩, he⟩ | ⟨hs, -, he⟩ := afterInstruction_cases u <;> rw [he]
    · exact .inr ⟨nofun, hz, hi, ht, hc⟩
    · exact .inr ⟨nofun, hz, hi, ht, hc⟩
    · exact .inr ⟨by simp [hw], hz, hi, ht, hc⟩
    · exact .inl ⟨{ u with accI := periodI u.cfg }, ⟨by rw [if_pos hz, hc]; rfl, ht, hc, hs⟩, rfl⟩
  · exact .inl ⟨s.beginStep, ⟨(if_neg hz).symm, rfl, rfl, hr⟩, rfl⟩

/-- The sleep is the smaller of the times to the two next events, and both accumulators go down by it (R241, R245). -/
theorem State.InstrDone.slept (hu : s.InstrDone u) (hd : u.timerEvent.sleepUntilNext.report = .sleep d) :
    ∃ I T, I = (if s.accI = 0 then periodI s.cfg else s.accI) ∧ T = (if s.accT = 0 then periodT s.cfg else s.accT) ∧ d = min I T ∧
      u.timerEvent.sleepUntilNext.accI = I - d ∧ u.timerEvent.sleepUntilNext.accT = T - d ∧
      u.timerEvent.sleepUntilNext.cfg = s.cfg := by
  have hI := hu.accI
  have hT : (if u.accT = 0 then periodT u.cfg else u.accT) = if s.accT = 0 then periodT s.cfg else s.accT := by rw [hu.accT, hu.cfg]
  rw [timerEvent_sleepUntilNext_eq u rfl rfl] at hd ⊢
  obtain rfl := Report.sleep.inj hd
  exact ⟨_, _, hI, hT, rfl, rfl, rfl, hu.cfg⟩

/-- Settles O22: the accumulators that the step sleeps on are at least 1 and at most their periods, and the smaller is taken from both. -/
theorem completedStepSleepsAtLeastOne : Obligations.CompletedStepSleepsAtLeastOne := by
  intro s t d hv ⟨hi, ht, _⟩ hr h hd
  obtain ⟨hI, hIT⟩ := periods_of_valid hv
  obtain ⟨u, hu, rfl⟩ | ⟨hn, -⟩ := schedStep_sleep_cases hr h
  · obtain ⟨I, T, hI', hT', hmin, haccI, haccT, -⟩ := hu.slept hd
    have hIle : 1 ≤ I ∧ I ≤ periodI s.cfg := by split_ifs at hI' <;> omega
    have hTle : 1 ≤ T ∧ T ≤ periodT s.cfg := by split_ifs at hT' <;> omega
    omega
  · exact absurd hd (hn d)

/-! ### The clock (R244, R245) -/

/-- Each accumulator is the time to its next event, which falls on a multiple of its period; and a suspended step left `ACC_I` at 0. -/
structure State.OnSchedule (s : State) (c : Clock) : Prop where
  instr : c.time + s.accI = c.events * periodI s.cfg
  timer : c.time + s.accT = c.decays * periodT s.cfg
  below : s.accT < periodT s.cfg
  wait  : ∀ x, s.status = .waiting x → s.accI = 0

/-- One event more is one period more. -/
theorem add_due_mul (n p : Nat) {due : Prop} [Decidable due] :
    (n + if due then 1 else 0) * p = n * p + if due then p else 0 := by
  split
  · exact Nat.succ_mul n p
  · rfl

/-- The sleep moves the time on and both accumulators down by as much; an event that was due has put one period on its accumulator. -/
theorem onSchedule_sleepUntilNext (hv : s.cfg.valid = true) (h : s.OnSchedule c) (hu : s.InstrDone u)
    (hd : u.timerEvent.sleepUntilNext.report = .sleep d) : u.timerEvent.sleepUntilNext.OnSchedule (c.after s d) := by
  obtain ⟨hPI, hPIT⟩ := periods_of_valid hv
  obtain ⟨hinstr, htimer, hbelow, -⟩ := h
  obtain ⟨I, T, hI, hT, hmin, haccI, haccT, hcfg⟩ := hu.slept hd
  have hnextI : c.time + I = (c.after s d).events * periodI s.cfg := by
    rw [Clock.after, add_due_mul]
    split_ifs at hI ⊢ <;> omega
  have hnextT : c.time + T = (c.after s d).decays * periodT s.cfg := by
    rw [Clock.after, add_due_mul]
    split_ifs at hT ⊢ <;> omega
  have hpos : 1 ≤ d := by split_ifs at hI hT <;> omega
  have hTle : T ≤ periodT s.cfg := by split_ifs at hT <;> omega
  have htime : (c.after s d).time = c.time + d := rfl
  refine ⟨?_, ?_, ?_, fun x hx => absurd (hx.symm.trans ((timerEvent_status u).trans hu.status)) nofun⟩
  · rw [haccI, hcfg]; omega
  · rw [haccT, hcfg]; omega
  · rw [haccT, hcfg]; omega

theorem State.OnSchedule.of_eq (h : s.OnSchedule c) (hi : t.accI = s.accI) (ht : t.accT = s.accT) (hc : t.cfg = s.cfg)
    (hw : ∀ x, t.status = .waiting x → s.accI = 0) : t.OnSchedule c :=
  ⟨by rw [hi, hc]; exact h.instr, by rw [ht, hc]; exact h.timer, by rw [ht, hc]; exact h.below, fun x hx => hi.trans (hw x hx)⟩

/-- A machine that just left its wait still has the instruction time of the suspended step to run (R246). -/
theorem instrDone_endWait (hz : s.accI = 0) (k : Key) : s.InstrDone { s.endWait x k with accI := periodI s.cfg } :=
  ⟨(if_pos hz).symm, rfl, rfl, rfl⟩

theorem schedStep_cfg (hr : s.status = .running) (h : s.schedStep = .next t) : t.cfg = s.cfg := by
  obtain ⟨u, hu, rfl⟩ | ⟨-, -, -, -, hc⟩ := schedStep_sleep_cases hr h
  · exact (timerEvent_cfg u).trans hu.cfg
  · exact hc

theorem onSchedule_of_run (h : ScheduledRun s c) (hv : s.cfg.valid = true) : s.OnSchedule c := by
  induction h with
  | start s hi ht hr =>
    obtain ⟨hI, hIT⟩ := periods_of_valid hv
    exact ⟨by simp [hi], by simp [ht], by omega, fun _ _ => hi⟩
  | slept s t c d _ hr hx hd ih =>
    rw [schedStep_cfg hr hx] at hv
    obtain ⟨u, hu, rfl⟩ | ⟨hn, -⟩ := schedStep_sleep_cases hr hx
    · exact onSchedule_sleepUntilNext hv (ih hv) hu hd
    · exact absurd hd (hn d)
  | ended s t c _ hr hx hn ih =>
    rw [schedStep_cfg hr hx] at hv
    obtain ⟨u, -, rfl⟩ | ⟨-, hz, hi, ht, hc⟩ := schedStep_sleep_cases hr hx
    · exact absurd rfl (hn _)
    · exact (ih hv).of_eq hi ht hc fun _ _ => hz
  | resumed s c x k d _ hw hd ih =>
    have hv : s.cfg.valid = true := by simpa [State.deliverKey] using hv
    exact onSchedule_sleepUntilNext hv (ih hv) (instrDone_endWait ((ih hv).wait x hw) k) hd
  | abandoned s c x _ hw ih => exact (ih hv).of_eq rfl rfl rfl nofun
  | redrawn s c _ ih =>
    rw [redraw_cfg] at hv
    exact (ih hv).of_eq (redraw_accI s) (redraw_accT s) (redraw_cfg s) fun x hx => (ih hv).wait x ((redraw_status s).symm.trans hx)

/-- Settles O23: with `ACC_I` at 0 the next instruction event falls now, and the next decay, less than one period ahead, is the first
not before it. -/
theorem eventsFallOnTheirPeriods : Obligations.EventsFallOnTheirPeriods := by
  intro s c hv h
  obtain ⟨hinstr, htimer, hbelow, -⟩ := onSchedule_of_run h hv
  refine ⟨fun hi => ?_, fun ht => by rwa [ht] at htimer⟩
  rw [hi, Nat.add_zero] at hinstr
  refine ⟨hinstr, ?_⟩
  rw [← hinstr]
  exact (Nat.div_eq_of_lt_le (by omega) (by rw [Nat.succ_mul]; omega)).symm

end Sys2Proof.Machine
end

section
/-! Obligations about the host and a machine that does not run: halted, waiting, its failure declared fatal, or with a ROM to load
(`60_exceptions.md` R226, R227, R246–R255). -/

namespace Sys2Proof.Machine

variable {s t : State} {x : Reg}

/-! ### The failure that the host declares fatal (R226) -/

theorem haltOnInputFailure_next {w p : Word} (hs : s.status = .running) (hr : s.report = .inputFailure w p) :
    s.haltOnInputFailure = .next (s.raise (.inputFailure w p)) := by
  simp only [State.haltOnInputFailure, hs, hr]

theorem haltOnInputFailure_refused (hr : ∀ w p, s.report ≠ .inputFailure w p) : s.haltOnInputFailure = .refused .noInputFailure := by
  unfold State.haltOnInputFailure
  split
  · exact absurd ‹_› (hr _ _)
  · rfl

/-- Settles O17: the declaration raises the failure that was returned last, and without one it is refused. -/
theorem hostHaltsOnInputFailure : Obligations.HostHaltsOnInputFailure :=
  ⟨fun s _ _ rest ha hs hr => (step_action ha).trans (haltOnInputFailure_next (s := { s with actions := rest }) hs hr),
    fun s rest ha hr => (step_action ha).trans (haltOnInputFailure_refused (s := { s with actions := rest }) hr)⟩

/-! ### A machine that does not run (R227, R246, R247) -/

/-- Of the host's actions but reset and boot, all that a machine that does not run lets through are a redraw and a key event. -/
theorem act_not_running {a : HostAction} (hs : s.status ≠ .running) (hl : s.loadable = false) (hreset : a ≠ .reset)
    (hboot : ∀ c, a ≠ .boot c) (h : s.act a = .next t) : t = s.withShown t.prev t.dirty ∨ ∃ e, t = s.keyEvent e := by
  cases a
  case step =>
    simp only [State.act, State.hostStep] at h
    split at h
    · exact absurd ‹_› hs
    · cases h; exact .inl rfl
    · cases h
  case keyPress k => cases h; exact .inr ⟨_, rfl⟩
  case keyFailure => cases h; exact .inr ⟨_, rfl⟩
  case redraw => cases h; exact .inl (redraw_eq_withShown s)
  case haltOnInputFailure =>
    simp only [State.act, State.haltOnInputFailure] at h
    split at h
    · exact absurd ‹_› hs
    · cases h
  case load rom => simp [State.act, State.loadRom, hl] at h
  case reset => exact absurd rfl hreset
  case boot c => exact absurd rfl (hboot c)
  case initialise w => exact absurd (initialise_cases h).1 hs

/-- A turn of such a machine: a redraw, a key event, or nothing but the free value that a wait draws. -/
theorem step_not_running (hs : s.status ≠ .running) (hl : s.loadable = false) (hreset : s.actions.head? ≠ some .reset)
    (hboot : ∀ c, s.actions.head? ≠ some (.boot c)) (h : step s = .next t) :
    ∃ n, (∀ e, s.status = .halted e → n = s.draws) ∧
      (t = State.withShown { s with actions := s.actions.tail, draws := n } t.prev t.dirty ∨
        ∃ ev, t = State.keyEvent { s with actions := s.actions.tail, draws := n } ev) := by
  obtain ⟨a, rest, ha, hact⟩ | ⟨ha, ⟨x, hw⟩, rfl⟩ | ⟨-, hr, -⟩ := step_cases h
  · rw [ha] at hreset hboot ⊢
    exact ⟨s.draws, fun _ _ => rfl, act_not_running (s := { s with actions := rest }) hs hl
      (fun e => hreset (congrArg some e)) (fun c e => hboot c (congrArg some e)) hact⟩
  · have hdraw : ({ s with actions := s.actions.tail, draws := s.draws + 1 } : State) = { s with draws := s.draws + 1 } := by
      rw [ha]; rfl
    refine ⟨s.draws + 1, fun e he => absurd (hw.symm.trans he) nofun, ?_⟩
    rw [hdraw]
    exact (waitTurn_cases s).imp_left fun ht => by rw [ht]; rfl
  · exact absurd hr hs

theorem hostStep_halted {e : FatalError} (hs : s.status = .halted e) : s.hostStep = .fault (.halted e) := by
  simp only [State.hostStep, hs]

theorem freeTurn_halted {e : FatalError} (hs : s.status = .halted e) : s.freeTurn = .fault (.halted e) := by
  simp only [State.freeTurn, hs, hostStep_halted hs]

theorem keyEvent_halted {e : FatalError} (hs : s.status = .halted e) (ev : KeyEvent) : s.keyEvent ev = s := by
  simp only [State.keyEvent, hs]

/-- Settles O15: a halted machine faults on every step asked for, takes no key event, and lets only a redraw through. -/
theorem haltedIsPermanent : Obligations.HaltedIsPermanent := by
  intro s e hs hl
  refine ⟨fun ha => ?_, fun rest ha => (step_action ha).trans (hostStep_halted hs), fun t h hreset hboot => ?_⟩
  · simp only [step, State.turn, ha, freeTurn_halted hs]
  · obtain ⟨n, hn, hturn⟩ := step_not_running (by simp [hs]) hl hreset hboot h
    rw [hn e hs] at hturn
    obtain ht | ⟨ev, ht⟩ := hturn
    · exact ht
    · rw [ht, keyEvent_halted (s := { s with actions := s.actions.tail }) hs]

/-- A key event in a wait ends it, and draws nothing (R246, R253). -/
theorem keyEvent_waiting (hw : s.status = .waiting x) (ev : KeyEvent) :
    (s.keyEvent ev).draws = s.draws ∧ ((∃ k, s.keyEvent ev = s.deliverKey x k) ∨ s.keyEvent ev = s.abandonWait x) := by
  cases ev with
  | press k =>
    rw [keyEvent_press hw, State.deliverKey, completeStep_eq]
    exact ⟨rfl, .inl ⟨k, (completeStep_eq _).symm⟩⟩
  | failure =>
    rw [keyEvent_failure hw]
    exact ⟨rfl, .inr rfl⟩

/-- Settles O19: whether the turn is a listed action or a free one, the wait goes on but for a redraw, or a key event ends it. -/
theorem waitStopsTheMachine : Obligations.WaitStopsTheMachine := by
  intro s t x hw hl h hreset hboot
  obtain ⟨n, -, ht | ⟨ev, ht⟩⟩ := step_not_running (by simp [hw]) hl hreset hboot h
  · obtain rfl : t.draws = n := congrArg State.draws ht
    exact .inl ht
  · obtain ⟨hd, hend⟩ := keyEvent_waiting (s := { s with actions := s.actions.tail, draws := n }) hw ev
    rw [← ht] at hd hend
    obtain rfl : t.draws = n := hd
    exact .inr hend

/-! ### `Load` (R255) -/

section

variable {rom : List Byte} (hl : s.loadable = true)
include hl

theorem loadRom_next (hlen : rom.length ≤ memSize - s.cfg.programOrigin) :
    s.loadRom rom = .next { s.memWriteList s.cfg.programOrigin rom with loadable := false } := by
  simp [State.loadRom, hl, hlen]

theorem loadRom_tooLong (hlen : memSize - s.cfg.programOrigin < rom.length) : s.loadRom rom = .refused .romTooLong := by
  simp [State.loadRom, hl, hlen]

end

/-- Settles O26: the ROM that fits is one `memWriteList` at the program origin, which does not wrap. -/
theorem loadWritesRomAtOrigin : Obligations.LoadWritesRomAtOrigin := by
  intro s rom rest ha hl
  refine ⟨fun hlen hm => ?_, fun hlen => (step_action ha).trans (loadRom_tooLong (s := { s with actions := rest }) hl hlen)⟩
  refine ⟨_, (step_action ha).trans (loadRom_next (s := { s with actions := rest }) hl hlen), ?_, fun j hj => ?_, fun a ha hout => ?_⟩
  · rw [memWriteList_eq]
  · exact memRead_memWriteList (s := { s with actions := rest }) hm _ rom (hlen.trans (Nat.sub_le _ _)) j hj
  · refine memRead_memWriteList_outside (s := { s with actions := rest }) hm _ rom a fun j hj => ?_
    simp only [physAddr, memSize]
    omega

end Sys2Proof.Machine
end

section
/-! Obligations about the reset, the first step after it, and what the host initialises between the two
(`70_reset_and_hazards.md` R260–R266). -/

namespace Sys2Proof.Machine

variable {s : State}

/-! ### Reset (R260) -/

/-- Settles O21: a reset machine is itself the result of a reset. -/
theorem resetMeetsInvariant : Obligations.ResetMeetsInvariant := by
  have hreset : ∀ c : Config, c.valid = true → (State.resetWith c).Inv := fun c => inv_resetUnder (s := State.resetWith c)
  exact ⟨hreset, hreset Config.default (by decide)⟩

@[simp] theorem readV_resetUnder (s : State) (c : Config) (q : Reg) : (s.resetUnder c).readV q = 0 := by
  simp [State.readV, State.resetUnder, State.resetWith]

theorem unlisted_glyph (g : GlyphTable) {a : Nat} (h : a < 80) : unlisted g a = g[a] := dif_pos h

theorem unlisted_zero (g : GlyphTable) {a : Nat} (h : 80 ≤ a) : unlisted g a = 0 := dif_neg (Nat.not_lt.2 h)

/-- Reset memory lists no address, so every read gives the reset content (R57, R261). -/
theorem memRead_resetUnder (s : State) (c : Config) {a : Nat} (h : a < memSize) :
    (s.resetUnder c).memRead a = unlisted c.glyphs a :=
  congrArg (unlisted c.glyphs) (Nat.mod_eq_of_lt h)

/-- Settles O24: registers, memory and grids by what a read of them gives, the other elements as `resetWith` writes them. -/
theorem resetZeroesEverything : Obligations.ResetZeroesEverything := by
  intro s rest ha
  refine ⟨_, step_action ha, readV_resetUnder _ _, rfl, rfl, rfl, rfl, rfl, rfl, rfl,
    fun r c => ⟨cell_blank r c, cell_blank r c⟩, rfl, fun a hg => ?_, fun a hz hm => ?_, rfl, rfl, rfl⟩
  · exact (memRead_resetUnder _ _ (hg.trans (by decide))).trans (unlisted_glyph _ hg)
  · exact (memRead_resetUnder _ _ hm).trans (unlisted_zero _ hz)

/-! ### The first step (R266) -/

/-- Settles O25: of the two periods, which both events put into the accumulators, `P_I` is the smaller. -/
theorem firstStepReportsInstructionPeriod : Obligations.FirstStepReportsInstructionPeriod := by
  intro s u i hv ha hr hi ht hd hu hs hf
  obtain ⟨-, hle⟩ := periods_of_valid hv
  have hstep := completedInstructionStep s u i ha hr hi hd hu hs hf (periodT s.cfg) (periodI s.cfg)
    (if_pos ht).symm (min_eq_left hle).symm
  simpa [ht] using hstep

/-! ### What the host initialises (R264) -/

theorem initialise_outOfRange {w : HostWrite} (hs : s.status = .running) (hr : s.report = .idle) (hw : w.inRange s.cfg = false) :
    s.initialise w = .refused .outOfRange := by
  simp [State.initialise, hs, hr, hw]

theorem initialise_afterFirstStep (w : HostWrite) (hr : s.report ≠ .idle) : s.initialise w = .refused .afterFirstStep := by
  unfold State.initialise
  split
  · exact absurd ‹_› hr
  · rfl

section

variable {rest : List HostAction} {w : HostWrite}

/-- The step that does an admitted initialisation sets the one element. -/
theorem step_initialise_next (hs : s.status = .running) (hr : s.report = .idle) (hw : w.inRange s.cfg = true)
    (ha : s.actions = .initialise w :: rest) : step s = .next (State.applyHostWrite { s with actions := rest } w) :=
  (step_action ha).trans (initialise_next (s := { s with actions := rest }) hs hr hw)

theorem step_initialise_outOfRange (hs : s.status = .running) (hr : s.report = .idle) (hw : w.inRange s.cfg = false)
    (ha : s.actions = .initialise w :: rest) : step s = .refused .outOfRange :=
  (step_action ha).trans (initialise_outOfRange (s := { s with actions := rest }) hs hr hw)

theorem step_initialise_afterFirstStep (hr : s.report ≠ .idle) (ha : s.actions = .initialise w :: rest) :
    step s = .refused .afterFirstStep :=
  (step_action ha).trans (initialise_afterFirstStep (s := { s with actions := rest }) w hr)

end

/-- `cell_setCell`, with the cell that is read named first. -/
theorem cell_setCell_eq_ite (g : Grid) (r : Fin 32) (c : Fin 64) (b : Bool) (r' : Fin 32) (c' : Fin 64) :
    (g.setCell r c b).cell r' c' = if r' = r ∧ c' = c then b else g.cell r' c' := by
  simp only [cell_setCell, eq_comm (a := r), eq_comm (a := c)]

/-- Settles O27: admitted, each initialisation is its own `applyHostWrite`; memory and the grids are described by what a read of them then gives. -/
theorem hostInitialisesBeforeFirstStep : Obligations.HostInitialisesBeforeFirstStep := by
  refine ⟨fun s rest hs hr => ?_, fun s rest w ha hr => step_initialise_afterFirstStep hr ha⟩
  have hset : ∀ w : HostWrite, w.inRange s.cfg = true → s.actions = .initialise w :: rest →
      step s = .next (State.applyHostWrite { s with actions := rest } w) := fun _ => step_initialise_next hs hr
  have href : ∀ w : HostWrite, w.inRange s.cfg = false → s.actions = .initialise w :: rest → step s = .refused .outOfRange :=
    fun _ => step_initialise_outOfRange hs hr
  refine ⟨fun _ _ => hset _ rfl, fun _ => hset _ rfl, fun _ => hset _ rfl, fun _ => hset _ rfl, fun _ => hset _ rfl, ?mem,
    fun _ _ hk => hset _ (decide_eq_true hk), fun _ hn => hset _ (decide_eq_true hn), fun _ hn => hset _ (decide_eq_true hn),
    fun _ hn => hset _ (decide_eq_true hn), ?disp, ?prev, fun _ => hset _ rfl, fun _ => hset _ rfl,
    fun _ _ hk => href _ (decide_eq_false (Nat.not_lt.2 hk)), fun _ hn => href _ (decide_eq_false (Nat.not_le.2 hn)),
    fun _ hn => href _ (decide_eq_false (Nat.not_le.2 hn)), fun _ hn => href _ (decide_eq_false (Nat.not_le.2 hn))⟩
  case mem => exact fun a b hm ha => ⟨_, hset _ rfl ha, rfl, fun n => memRead_memWrite (s := { s with actions := rest }) hm a n b⟩
  case disp => exact fun r c b ha => ⟨_, hset _ rfl ha, rfl, cell_setCell_eq_ite s.disp r c b⟩
  case prev => exact fun r c b ha => ⟨_, hset _ rfl ha, rfl, cell_setCell_eq_ite s.prev r c b⟩

end Sys2Proof.Machine
end
